-- ==== Sys2Proof/Word.lean ====
section
/-! DEFINITION. The two word types of GFCORE: 32-bit registers (R10) and bytes (R11, R130). -/

namespace Sys2Proof

/-- A 32-bit register value (R10: register width 32 bits). -/
abbrev Word := BitVec 32

/-- A byte: a field element, an index or an indicator (R11, R16). -/
abbrev Byte := BitVec 8

end Sys2Proof
end

