-- ==== Sys2Proof/Config.lean ====
section
/-! DEFINITION. What an implementation or a platform fixes (R9, R74, R83, R278), and the free values: the values
the spec leaves unspecified (R73, R314, R320). A free value is an opaque constant with no body. -/

namespace Sys2Proof

/-- The parameters of one GFCORE instance (R9) and of the platform around it (R74, R83, R278). A model takes them as
arguments: they stand in State, where no step changes them, so that a statement over every state is a statement
over every value of the parameters. -/
structure Config where
  /-- K_MAX, the largest `k`, `n`, `vlen` or `srcs` (R9). -/
  kMax : Nat
  /-- M_MAX, the largest `m`, `rows` or `dests` (R9). -/
  mMax : Nat
  /-- MEM_BYTES, the size of the operand memory (R9). -/
  memBytes : Nat
  /-- REG_BASE, where the platform puts the register window on the host bus (R74); no rule depends on it. -/
  regBase : Nat
  /-- MEM_BASE, where the platform puts the memory port on the host bus (R74); no rule depends on it. -/
  memBase : Nat
  /-- IRQ_LINE, the interrupt-controller input IRQ drives (R278); no rule depends on it. -/
  irqLine : Nat
  /-- HOST_BUS_ORDERED: the host bus keeps program order (R83). -/
  hostBusOrdered : Bool
  deriving DecidableEq, Repr

/-- The defaults of R9. The platform parameters have no default in the spec: see notes/assumptions/6.md. -/
def Config.default : Config where
  kMax := 32
  mMax := 64
  memBytes := 65536
  regBase := 0
  memBase := 0
  irqLine := 0
  hostBusOrdered := true

/-- FREE VALUE (U7, R73): the byte that address `a` of the operand memory holds after hard reset number `g`. -/
opaque Config.powerOnByte (g a : Nat) : Byte

/-- FREE VALUE (U8, R314): the byte that address `a` holds after the abort that made draw number `d`. -/
opaque Config.abortedByte (d a : Nat) : Byte

/-- FREE VALUE (U12, R320): how many host accesses may take effect between the accepted START that made draw number
`d` and its completion step. Any finite number is allowed, and finiteness is the fairness of R321. -/
opaque Config.completionDelay (d : Nat) : Nat

/-- FREE VALUE (R132): `ginv(0)` is not defined. No command reaches it: every use of `ginv` is guarded. -/
opaque Config.inverseOfZero : Byte

end Sys2Proof
end

