-- ==== Sys2Proof/Machine/Field.lean ====
section
/-! DEFINITION. Arithmetic in GF(2^8) with the polynomial 0x11D (R130 to R134) and the 32-byte table entry built on
it (R150, R151). -/

namespace Sys2Proof.Machine

/-- One round of the shift-and-add procedure of R131 for bit `t` of `b`, on the pair `(r, a)`. -/
def gmulRound (b : Byte) (p : BitVec 9 × BitVec 9) (t : Nat) : BitVec 9 × BitVec 9 :=
  let r := if b.getLsbD t then p.1 ^^^ p.2 else p.1
  let a := p.2 <<< 1
  (r, if a[8] then a ^^^ 0x11D#9 else a)

/-- Field multiplication (R131): rounds 0..7, then the low eight bits of `r`. -/
def gmul (a b : Byte) : Byte :=
  ((List.range 8).foldl (gmulRound b) (0#9, a.setWidth 9)).1.setWidth 8

/-- The byte with product 1, found by search; `none` for 0 (R132). -/
def ginv? (a : Byte) : Option Byte :=
  ((List.range 256).find? fun n => gmul a (BitVec.ofNat 8 n) == 1#8).map (BitVec.ofNat 8)

/-- The field inverse (R132). At 0, where the spec defines none and no command asks for it, a free value. -/
def ginv (a : Byte) : Byte := (ginv? a).getD Config.inverseOfZero

/-- The powers of the generator 0x02 (R134). -/
def gexp : Nat → Byte
  | 0 => 1#8
  | n + 1 => gmul (gexp n) 2#8

/-- The exclusive-or of a list of bytes (R12), 0 for the empty list. -/
def xorAll (bytes : List Byte) : Byte := bytes.foldl (· ^^^ ·) 0#8

/-- The 32-byte table entry E(c) (R150). -/
def tableEntry (c : Byte) : List Byte :=
  (List.range 16).map (fun t => gmul c (BitVec.ofNat 8 t)) ++
    (List.range 16).map (fun t => gmul c (BitVec.ofNat 8 t <<< 4))

/-- Table lookup (R151): the entry for the low nibble, exclusive-or the entry for the high nibble. -/
def tmul (table : List Byte) (x : Byte) : Byte :=
  table.getD (x &&& 0x0F#8).toNat 0#8 ^^^ table.getD (16 + (x >>> 4).toNat) 0#8

end Sys2Proof.Machine
end

