-- ==== Sys2Proof/Machine/State.lean ====
section
/-! DEFINITION. The state of one GFCORE instance (R49), as plain data: registers, engine phase and latched command,
operand memory; and beside it the parameters, the host's accesses still to come and the model's own bookkeeping of
free values. -/

namespace Sys2Proof.Machine

/-- Status codes, STATUS.ERR (R270). -/
inductive ErrCode where
  | ok | domain | singular | precond | illegalCmd
  deriving DecidableEq, Repr

/-- Cause codes, ERR_INFO.CAUSE (R270). -/
inductive Cause where
  | none | countRange | addrRange | srcPtrRange | destPtrRange | overlap | erasureInconsistent
  | singularPivot | zeroOperand | illegalCommand
  deriving DecidableEq, Repr

/-- ERR_INFO (R40): CAUSE and the 16-bit INDEX; bits [31:24] are reserved and read 0. -/
structure ErrInfo where
  cause : Cause
  index : BitVec 16
  deriving DecidableEq, Repr

/-- The latched command L (R45): CMD and ARG0..ARG8 as copied at the accepted START. -/
structure Latched where
  cmd : Word
  args : Vector Word 9
  deriving DecidableEq, Repr

/-- The engine phase (R45), one home for the phase, STATUS.BUSY and the latched command: there is a latched command
exactly while BUSY. `wait` is the model's own: how many host accesses may still take effect before the completion
step (R320). -/
inductive Engine where
  | idle
  | busy (latched : Latched) (wait : Nat)
  deriving DecidableEq, Repr

/-- The operand memory (R70), as the bytes written since the last hard reset: addresses strictly rising. An address
not listed has no specified byte (R73). -/
abbrev Memory := List Host.Cell

/-- What the outside can do to GFCORE: register-port accesses (R43), memory-port accesses (R71), the POLL loop of
R107, and the reset input (R310). `size` is the width of a register access in bytes. -/
inductive Access where
  | regRead (size off : Nat)
  | regWrite (size off : Nat) (v : Word)
  | memRead (a : Nat)
  | memWrite (a : Nat) (v : Byte)
  | poll
  | hardReset
  deriving DecidableEq, Repr

/-- One access, with the agent that issued it (R284) and its place in that agent's program order (R83). -/
structure Request where
  agent : Nat
  seq : Nat
  access : Access
  deriving DecidableEq, Repr

/-- What a read returns: a register word (R43) or a memory byte (R71). -/
inductive Value where
  | word (v : Word)
  | byte (v : Byte)
  deriving DecidableEq, Repr

/-- The value a read returned, with the request it answers ("the program records the value", R107). -/
structure Reply where
  agent : Nat
  seq : Nat
  value : Value
  deriving DecidableEq, Repr

/-- The state. -/
structure State where
  /-- K_MAX, M_MAX, MEM_BYTES and the platform parameters (R9); no step changes them. -/
  cfg : Config
  /-- CTRL.IRQ_EN (R36). -/
  irqEn : Bool
  /-- STATUS.DONE (R37). -/
  done : Bool
  /-- STATUS.OVERRUN (R37). -/
  overrun : Bool
  /-- STATUS.ERR (R37). -/
  err : ErrCode
  /-- CMD (R38). -/
  cmd : Word
  /-- RESULT.RES (R39); the register's bits [31:8] are reserved and read 0. -/
  result : Byte
  /-- ERR_INFO (R40). -/
  errInfo : ErrInfo
  /-- ARG0..ARG8 (R41). -/
  args : Vector Word 9
  /-- The engine phase, STATUS.BUSY and the latched command (R45). -/
  engine : Engine
  /-- The operand memory (R70). -/
  mem : Memory
  /-- The accesses the outside has issued and GFCORE has not yet performed, in the order it accepts them (R83). -/
  inputs : List Request
  /-- The values reads have returned, newest first (R107). -/
  replies : List Reply
  /-- MODEL'S OWN: completion delays given in advance for the STARTs to come; when it is empty the delay is the free
  value `Config.completionDelay`. -/
  schedule : List Nat
  /-- MODEL'S OWN: how many free values have been drawn. -/
  draws : Nat
  /-- MODEL'S OWN: how many hard resets have happened since the first; it selects the unspecified memory (R73). -/
  powerOns : Nat
  deriving DecidableEq, Repr

/-- Why the machine stops with a fault. No command faults: a command's errors are status codes (R271). Both are
accesses to an address that does not exist, which R326 forbids the host to make (U18 and U19 treat them as
`refuse`). -/
inductive Fault where
  /-- Raised by the register port at an offset of 0x100 or above (R43, U18). Safe: the machine stops. -/
  | registerOffsetOutside (off : Nat)
  /-- Raised by the memory port at an address of MEM_BYTES or above (R71, U19). Safe: the machine stops. -/
  | memoryAddressOutside (a : Nat)
  deriving DecidableEq, Repr

/-- Why the model has no step. No command is refused. -/
inductive Refusal where
  /-- Raised by `exec` for a command without a meaning; no arm does. Safe. -/
  | notModelled (mnemonic : String)
  /-- Raised by the register port for an access that is not 32 bits wide (R43, U18). Safe: the machine stops. -/
  | registerAccessNotWord (size : Nat)
  /-- Raised by the register port at an offset that is no multiple of 4 (R43, U18). Safe: the machine stops. -/
  | registerOffsetMisaligned (off : Nat)
  /-- Raised by a START on a reordering host bus while an earlier memory write of the same agent is in flight (R83,
  R326 (c), U20). Safe: the machine stops. -/
  | memoryWriteInFlight (agent : Nat)
  deriving DecidableEq, Repr

/-- The machine right after a power-on reset (R310, R312): the registers at the values of R312, the engine idle, no
byte of operand memory specified, and nothing issued by the host. -/
def State.reset : State where
  cfg := Config.default
  irqEn := false
  done := false
  overrun := false
  err := .ok
  cmd := 0#32
  result := 0#8
  errInfo := ⟨.none, 0#16⟩
  args := Vector.replicate 9 0#32
  engine := .idle
  mem := []
  inputs := []
  replies := []
  schedule := []
  draws := 0
  powerOns := 0

end Sys2Proof.Machine
end

