-- ==== Sys2Proof/Machine/Ops.lean ====
section
/-! DEFINITION. The named operations over memory and registers, regions, and the life of a command: the accepted START
(R277), the completion step with its error entry (R271), acknowledgement (R275) and the two resets (R310, R311,
R314). -/

namespace Sys2Proof.Machine

/-! ## Memory -/

/-- The canonical form of a memory: addresses strictly rising. An unlisted address has no value in the list, so no
entry can equal it. -/
abbrev Memory.wf (m : Memory) : Prop := m.Pairwise fun c d => c.1 < d.1

/-- The byte listed at an address. -/
def Memory.lookup : Memory → Nat → Option Byte
  | [], _ => none
  | (b, v) :: rest, a => if b = a then some v else Memory.lookup rest a

/-- Write one byte, keeping the addresses rising (R82: a write changes only the addressed byte). -/
def Memory.write : Memory → Nat → Byte → Memory
  | [], a, v => [(a, v)]
  | (b, w) :: rest, a, v =>
    if a < b then (a, v) :: (b, w) :: rest
    else if a = b then (a, v) :: rest
    else (b, w) :: Memory.write rest a v

/-- Write a list of bytes, first to last. -/
def Memory.writeAll (m : Memory) (stores : List Host.Cell) : Memory :=
  stores.foldl (fun m c => Memory.write m c.1 c.2) m

/-- MemRead8 (R13). An address nothing has written since the last hard reset holds the unspecified byte of R73, which
is a free value (U7). -/
def State.readByte (s : State) (a : Nat) : Byte :=
  (Memory.lookup s.mem a).getD (Config.powerOnByte s.powerOns a)

/-- MemRead32 (R13, R76): little-endian. -/
def State.read32 (s : State) (a : Nat) : Word :=
  (s.readByte a).setWidth 32 ||| (s.readByte (a + 1)).setWidth 32 <<< 8 |||
    (s.readByte (a + 2)).setWidth 32 <<< 16 ||| (s.readByte (a + 3)).setWidth 32 <<< 24

/-- MemRead (R13): `n` bytes from `a` on. -/
def State.readBytes (s : State) (a n : Nat) : List Byte := (List.range n).map fun t => s.readByte (a + t)

/-- The cells MemWrite (R13) writes: the bytes from `a` on. -/
def cellsAt : Nat → List Byte → List Host.Cell
  | _, [] => []
  | a, v :: rest => (a, v) :: cellsAt (a + 1) rest

/-! ## Regions -/

/-- `region(a, n)` (R15). -/
structure Region where
  base : Nat
  size : Nat
  deriving DecidableEq, Repr

/-- The address lies in the region. -/
abbrev Region.Has (r : Region) (a : Nat) : Prop := r.base ≤ a ∧ a < r.base + r.size

/-- In range (R15): empty, or ending at MEM_BYTES or below. Natural numbers, so nothing wraps (R11). -/
def Region.inRange (r : Region) (cfg : Config) : Bool := r.size = 0 || r.base + r.size ≤ cfg.memBytes

/-- Two regions share an address (R15). An empty region overlaps nothing. -/
def Region.overlaps (r q : Region) : Bool :=
  r.size ≠ 0 && q.size ≠ 0 && r.base < q.base + q.size && q.base < r.base + r.size

/-! ## Commands -/

/-- Why a command raises an error: the cause and the INDEX it reports (R270). -/
structure CmdError where
  cause : Cause
  index : Nat
  deriving DecidableEq, Repr

/-- The effect of a command that ends with `complete(OK)` (R271): the RESULT byte of a scalar command, and the memory
bytes written, in order. -/
structure Effect where
  result : Option Byte
  stores : List Host.Cell
  deriving DecidableEq, Repr

/-- The status code a cause is reported under (R270). -/
def Cause.err : Cause → ErrCode
  | .none => .ok
  | .countRange | .addrRange | .srcPtrRange | .destPtrRange | .overlap | .erasureInconsistent => .precond
  | .singularPivot => .singular
  | .zeroOperand => .domain
  | .illegalCommand => .illegalCmd

/-- ERR_INFO with nothing to report: 0 (R40). -/
def noError : ErrInfo := ⟨.none, 0#16⟩

/-- STATUS.BUSY (R45). -/
def State.busy (s : State) : Bool :=
  match s.engine with
  | .idle => false
  | .busy _ _ => true

/-- The argument registers a command works on: the latched ones (R45). In the IDLE phase, where no completion step
happens, the registers an accepted START would latch. -/
def State.commandArgs (s : State) : Vector Word 9 :=
  match s.engine with
  | .idle => s.args
  | .busy l _ => l.args

/-- Completion with `raise Error` (R271), the one way an error is taken: no memory byte and no RESULT is written, ERR
and ERR_INFO report it, the engine is IDLE and DONE is set. -/
def State.raise (s : State) (e : CmdError) : State :=
  { s with
    err := e.cause.err
    errInfo := ⟨e.cause, BitVec.ofNat 16 e.index⟩
    engine := .idle
    done := true }

/-- Completion with `complete(OK)` (R271): the memory writes and, for a scalar command, the RESULT write take effect. -/
def State.completeOk (s : State) (e : Effect) : State :=
  { s with
    mem := s.mem.writeAll e.stores
    result := e.result.getD s.result
    err := .ok
    errInfo := noError
    engine := .idle
    done := true }

/-- The completion step (R271) of a command whose rule ended as given. -/
def State.complete (s : State) : Except CmdError Effect → State
  | .ok e => s.completeOk e
  | .error e => s.raise e

/-- Acknowledgement (R275), the host's answer to a completion: a STATUS write of `v` clears DONE and OVERRUN where `v`
has a 1 (W1C, R37). Nothing else is restored. -/
def State.writeStatus (s : State) (v : Word) : State :=
  { s with
    done := s.done && !v[1]
    overrun := s.overrun && !v[2] }

/-- The accepted START (R277): latch CMD and ARG0..ARG8, clear DONE, ERR and ERR_INFO, become BUSY. `wait` is how many
host accesses may take effect before the completion step. -/
def State.acceptStart (s : State) (wait : Nat) : State :=
  { s with
    engine := .busy ⟨s.cmd, s.args⟩ wait
    done := false
    err := .ok
    errInfo := noError }

/-- The delay of the next accepted START: given in advance, else the free value (R320, U12). -/
def State.nextDelay (s : State) : Nat := s.schedule.headD (Config.completionDelay s.draws)

/-- The delay is used up. -/
def State.drawDelay (s : State) : State :=
  { s with
    schedule := s.schedule.tail
    draws := s.draws + 1 }

/-! ## Reset -/

/-- The register values of R312, shared by both resets: every register at its reset value, the phase IDLE, no latched
command. What is no register is left as it is. -/
def State.resetRegisters (s : State) : State :=
  { s with
    irqEn := false
    done := false
    overrun := false
    err := .ok
    cmd := 0#32
    result := 0#8
    errInfo := noError
    args := Vector.replicate 9 0#32
    engine := .idle }

/-- Hard reset (R310): the registers of R312, and no byte of operand memory is specified any longer (R73). -/
def State.hardReset (s : State) : State :=
  { s.resetRegisters with
    mem := []
    powerOns := s.powerOns + 1 }

/-- The bytes an aborted command leaves in its output regions (R314): unspecified, so free values (U8). A command that
would have completed with an error leaves every byte as it is. -/
def State.abortCells (s : State) : Except CmdError Effect → List Host.Cell
  | .ok e => e.stores.map fun c => (c.1, Config.abortedByte s.draws c.1)
  | .error _ => []

/-- The abort (R314) of a latched command whose rule would have ended as given: only operand memory changes here. -/
def State.abort (s : State) (outcome : Except CmdError Effect) : State :=
  { s with
    mem := s.mem.writeAll (s.abortCells outcome)
    draws := s.draws + 1 }

end Sys2Proof.Machine
end

