-- ==== Sys2Proof/Machine/Matrix.lean ====
section
/-! DEFINITION. Byte matrices (R14, R77) and the elimination procedure of the matrix inversion engine (R170). -/

namespace Sys2Proof.Machine

/-- A matrix as its list of rows (R14: `M[r]` is a sequence of bytes). -/
abbrev ByteMatrix := List (List Byte)

/-- `M[r][c]` (R14). -/
def entry (m : ByteMatrix) (r c : Nat) : Byte := (m.getD r []).getD c 0#8

/-- The `rows × cols` matrix with the given elements. -/
def matrixOf (rows cols : Nat) (f : Nat → Nat → Byte) : ByteMatrix :=
  (List.range rows).map fun r => (List.range cols).map fun c => f r c

/-- `I_n` (R14). -/
def identityMatrix (n : Nat) : ByteMatrix := matrixOf n n fun r c => if r = c then 1#8 else 0#8

/-- The row-major matrix at an address (R77). -/
def State.readMatrix (s : State) (base rows cols : Nat) : ByteMatrix :=
  matrixOf rows cols fun r c => s.readByte (base + r * cols + c)

/-- The cells that hold a row-major matrix of `cols` columns at an address (R77). -/
def matrixCells (base cols : Nat) (m : ByteMatrix) : List Host.Cell :=
  (List.range m.length).flatMap fun r => cellsAt (base + r * cols) (m.getD r [])

/-- Row operations, on a whole row at once: `row · f`, and `row xor f · other`. -/
def scaleRow (f : Byte) (row : List Byte) : List Byte := row.map fun x => gmul x f

def addScaledRow (f : Byte) (other row : List Byte) : List Byte :=
  List.zipWith (fun x y => x ^^^ gmul f y) row other

/-- The two halves of R170: the working matrix `A` and the identity-augmented half `X`. -/
structure Elimination where
  a : ByteMatrix
  x : ByteMatrix
  deriving DecidableEq, Repr

/-- The pivot row for column `c` (R170): `c` itself when the diagonal is not 0, else the smallest row below it with a
nonzero entry in the column. -/
def pivotRow (n c : Nat) (a : ByteMatrix) : Option Nat :=
  if entry a c c ≠ 0#8 then some c
  else (List.range n).find? fun r => c < r && entry a r c != 0#8

/-- Swap rows `c` and `r`. -/
def swapRows (c r : Nat) (m : ByteMatrix) : ByteMatrix := (m.set c (m.getD r [])).set r (m.getD c [])

/-- Scale row `c` by `p`. -/
def scaleAt (c : Nat) (p : Byte) (m : ByteMatrix) : ByteMatrix := m.set c (scaleRow p (m.getD c []))

/-- Add to every row but `c` its own factor (its entry of column `c` of `a`) times row `c`. -/
def clearColumn (c : Nat) (a m : ByteMatrix) : ByteMatrix :=
  m.mapIdx fun r row => if r = c then row else addScaledRow (entry a r c) (m.getD c []) row

/-- One pivot column (R170): swap, scale by the pivot's inverse, eliminate. `none` when no pivot exists. -/
def eliminateColumn (n c : Nat) (e : Elimination) : Option Elimination :=
  match pivotRow n c e.a with
  | none => none
  | some r =>
    let a := swapRows c r e.a
    let x := swapRows c r e.x
    let p := ginv (entry a c c)
    let a := scaleAt c p a
    let x := scaleAt c p x
    some ⟨clearColumn c a a, clearColumn c a x⟩

/-- The pivot columns in turn; the first without a pivot is returned as the error (R170). -/
def eliminateColumns (n : Nat) : List Nat → Elimination → Except Nat Elimination
  | [], e => .ok e
  | c :: cs, e =>
    match eliminateColumn n c e with
    | none => .error c
    | some e' => eliminateColumns n cs e'

/-- `gj_invert(M, n)` (R170): the inverse, or the pivot column that failed. -/
def gjInvert (m : ByteMatrix) (n : Nat) : Except Nat ByteMatrix :=
  match eliminateColumns n (List.range n) ⟨m, identityMatrix n⟩ with
  | .error c => .error c
  | .ok e => .ok e.x

end Sys2Proof.Machine
end

