-- ==== Sys2Proof/Syntax.lean ====
section
/-! DEFINITION. The commands of GFCORE, one constructor per row of spec/opcode_table.json (R101). A command word
carries no operand (R100); the operands are the argument registers (R103). -/

namespace Sys2Proof

/-- The eight commands of R101. -/
inductive Instr where
  /-- GF_MUL, multiply two field elements (R135). -/
  | gfMul
  /-- GF_DIV, divide two field elements (R136). -/
  | gfDiv
  /-- GF_INV, multiplicative inverse (R137). -/
  | gfInv
  /-- EXPAND, expand a coefficient matrix into tables (R152). -/
  | expand
  /-- INVERT, invert a square matrix (R173). -/
  | invert
  /-- DERIVE, select surviving rows and derive the decode matrix (R196). -/
  | derive
  /-- DOTP, single-output dot product (R221). -/
  | dotp
  /-- ENCODE, multi-output dot product (R220). -/
  | encode
  deriving DecidableEq, Repr

end Sys2Proof
end

