-- ==== Sys2Proof/Machine/Operands.lean ====
section
/-! DEFINITION. The operand forms of R103: `u8`, `u32` and `addr`, and which argument register holds what for each
command. -/

namespace Sys2Proof.Machine

/-- A `u8` operand: ARG[i][7:0], bits [31:8] ignored, never sign-extended (R103, R104). -/
def State.u8 (s : State) (i : Fin 9) : Byte := (s.commandArgs.get i).setWidth 8

/-- A `u32` operand: ARG[i] as an unsigned natural number, never scaled (R103, R104). -/
def State.u32 (s : State) (i : Fin 9) : Nat := (s.commandArgs.get i).toNat

/-- An `addr` operand: a `u32` used as a byte address of the operand memory (R103). -/
def State.addr (s : State) (i : Fin 9) : Nat := s.u32 i

/-- The operand forms. -/
inductive OperandForm where
  | u8 | u32 | addr
  deriving DecidableEq, Repr

/-- R103, row by row: the forms of ARG0, ARG1, ... A register beyond the list is ignored by the command. -/
def operandForms : Instr → List OperandForm
  | .gfMul => [.u8, .u8]
  | .gfDiv => [.u8, .u8]
  | .gfInv => [.u8]
  | .expand => [.u32, .u32, .addr, .addr]
  | .invert => [.u32, .addr, .addr]
  | .derive => [.u32, .u32, .u32, .u32, .addr, .addr, .addr, .addr, .addr]
  | .dotp => [.u32, .u32, .addr, .addr, .addr]
  | .encode => [.u32, .u32, .u32, .addr, .addr, .addr]

/-- How many argument registers a command uses. -/
def arity (i : Instr) : Nat := (operandForms i).length

end Sys2Proof.Machine
end

