-- ==== Sys2Proof/Machine/Derive.lean ====
section
/-! DEFINITION. The erasure-pattern selector and decode-matrix derivor: DERIVE (R190 to R196). -/

namespace Sys2Proof.Machine

/-- The erasure descriptor as DERIVE reads it (R190): the dense indicators `D`, the sparse list `S`, and the counts
they are read against. -/
structure Descriptor where
  k : Nat
  dense : List Byte
  sparse : List Byte
  nSrcErr : Nat
  deriving DecidableEq, Repr

/-- `D[r]` (R190). -/
def Descriptor.marked (d : Descriptor) (r : Nat) : Bool := d.dense.getD r 0#8 == 1#8

/-- `S[p]` (R190). -/
def Descriptor.missing (d : Descriptor) (p : Nat) : Nat := (d.sparse.getD p 0#8).toNat

/-- Consistency (R190): conditions (a) to (f), in order. `m` is the length of `dense`, `n_err` that of `sparse`. -/
def Descriptor.consistent (d : Descriptor) : Bool :=
  let m := d.dense.length
  let nErr := d.sparse.length
  d.dense.all (fun v => v == 0#8 || v == 1#8) &&
    (List.range (nErr - 1)).all (fun p => d.missing p < d.missing (p + 1)) &&
    (List.range nErr).all (fun p => d.missing p < m) &&
    (List.range nErr).all (fun p => d.marked (d.missing p)) &&
    ((List.range m).filter d.marked).length == nErr &&
    ((List.range nErr).filter fun p => d.missing p < d.k).length == d.nSrcErr

/-- The surviving rows the selection takes (R191): walking rows `0..m-1` in order, skipping marked ones, the first `k`. -/
def Descriptor.selection (d : Descriptor) : List Nat :=
  ((List.range d.dense.length).filter fun r => !d.marked r).take d.k

/-- The descriptor at DERIVE's arguments. -/
def deriveDescriptor (s : State) : Descriptor where
  k := s.u32 0
  dense := s.readBytes (s.addr 5) (s.u32 1)
  sparse := s.readBytes (s.addr 6) (s.u32 2)
  nSrcErr := s.u32 3

/-- The checks of R196, in its order. -/
def deriveCheck (s : State) : Option CmdError :=
  let k := s.u32 0
  let m := s.u32 1
  let nErr := s.u32 2
  let nSrcErr := s.u32 3
  let enc : Region := ⟨s.addr 4, m * k⟩
  let dense : Region := ⟨s.addr 5, m⟩
  let sparse : Region := ⟨s.addr 6, nErr⟩
  let dec : Region := ⟨s.addr 7, nErr * k⟩
  let idx : Region := ⟨s.addr 8, k⟩
  if ¬(1 ≤ k ∧ k ≤ s.cfg.kMax) then some ⟨.countRange, 0⟩
  else if ¬(k ≤ m ∧ m ≤ s.cfg.mMax) then some ⟨.countRange, 1⟩
  else if ¬(nErr ≤ m - k) then some ⟨.countRange, 2⟩
  else if ¬(nSrcErr ≤ min nErr k) then some ⟨.countRange, 3⟩
  else if ¬enc.inRange s.cfg then some ⟨.addrRange, 4⟩
  else if ¬dense.inRange s.cfg then some ⟨.addrRange, 5⟩
  else if ¬sparse.inRange s.cfg then some ⟨.addrRange, 6⟩
  else if ¬dec.inRange s.cfg then some ⟨.addrRange, 7⟩
  else if ¬idx.inRange s.cfg then some ⟨.addrRange, 8⟩
  else if [dec, idx].any (fun o => [enc, dense, sparse].any o.overlaps) || dec.overlaps idx then
    some ⟨.overlap, 0⟩
  else if ¬(deriveDescriptor s).consistent then some ⟨.erasureInconsistent, 0⟩
  else none

/-- The selection matrix `B` (R191): the selected rows of the encode matrix. -/
def selectionMatrix (s : State) : ByteMatrix :=
  let k := s.u32 0
  (deriveDescriptor s).selection.map fun r =>
    (List.range k).map fun t => s.readByte (s.addr 4 + r * k + t)

/-- The decode row of missing row number `p` (R194 for a missing source, R195 for a missing parity). -/
def decodeRow (s : State) (binv : ByteMatrix) (p : Nat) : List Byte :=
  let k := s.u32 0
  let e := (deriveDescriptor s).missing p
  (List.range k).map fun t =>
    if p < s.u32 3 then entry binv e t
    else xorAll ((List.range k).map fun j => gmul (s.readByte (s.addr 4 + e * k + j)) (entry binv j t))

/-- The stores of R196: the decode matrix `n_err × k`, then the decode index (R192). -/
def deriveStores (s : State) (binv : ByteMatrix) : List Host.Cell :=
  matrixCells (s.addr 7) (s.u32 0) ((List.range (s.u32 2)).map (decodeRow s binv)) ++
    cellsAt (s.addr 8) ((deriveDescriptor s).selection.map (BitVec.ofNat 8))

/-- DERIVE (R196): `k`, `m`, `n_err`, `n_src_err`, `enc`, `dense`, `sparse`, `dec`, `idx` in ARG0..ARG8. -/
def deriveRule (s : State) : Except CmdError Effect :=
  match deriveCheck s with
  | some e => .error e
  | none =>
    match gjInvert (selectionMatrix s) (s.u32 0) with
    | .error c => .error ⟨.singularPivot, c⟩
    | .ok binv => .ok ⟨none, deriveStores s binv⟩

/-- The completion step of DERIVE (R196, R271). -/
def execDerive (s : State) : Host.Outcome State Fault Refusal := .next (s.complete (deriveRule s))

end Sys2Proof.Machine
end

