-- ==== Sys2Proof/Machine/Expand.lean ====
section
/-! DEFINITION. The lookup-table expander: EXPAND (R152). -/

namespace Sys2Proof.Machine

/-- The checks of R152, in its order; the first failing one is reported (R273). -/
def expandCheck (s : State) : Option CmdError :=
  let k := s.u32 0
  let rows := s.u32 1
  let mat : Region := ⟨s.addr 2, rows * k⟩
  let tbl : Region := ⟨s.addr 3, 32 * k * rows⟩
  if ¬(1 ≤ k ∧ k ≤ s.cfg.kMax) then some ⟨.countRange, 0⟩
  else if ¬(1 ≤ rows ∧ rows ≤ s.cfg.mMax) then some ⟨.countRange, 1⟩
  else if ¬mat.inRange s.cfg then some ⟨.addrRange, 2⟩
  else if ¬tbl.inRange s.cfg then some ⟨.addrRange, 3⟩
  else if tbl.overlaps mat then some ⟨.overlap, 0⟩
  else none

/-- The stores of R152: entry `(j, i)` at table offset `32*(j*k + i)`. -/
def expandStores (s : State) : List Host.Cell :=
  let k := s.u32 0
  (List.range (s.u32 1)).flatMap fun j =>
    (List.range k).flatMap fun i =>
      cellsAt (s.addr 3 + 32 * (j * k + i)) (tableEntry (s.readByte (s.addr 2 + j * k + i)))

/-- EXPAND (R152): `k`, `rows`, `mat`, `tbl` in ARG0..ARG3. -/
def expandRule (s : State) : Except CmdError Effect :=
  match expandCheck s with
  | some e => .error e
  | none => .ok ⟨none, expandStores s⟩

/-- The completion step of EXPAND (R152, R271). -/
def execExpand (s : State) : Host.Outcome State Fault Refusal := .next (s.complete (expandRule s))

end Sys2Proof.Machine
end

