-- ==== Sys2Proof/Machine/Invert.lean ====
section
/-! DEFINITION. The matrix inversion engine: INVERT (R173). -/

namespace Sys2Proof.Machine

/-- The checks of R173, in its order. -/
def invertCheck (s : State) : Option CmdError :=
  let n := s.u32 0
  let input : Region := ⟨s.addr 1, n * n⟩
  let output : Region := ⟨s.addr 2, n * n⟩
  if ¬(1 ≤ n ∧ n ≤ s.cfg.kMax) then some ⟨.countRange, 0⟩
  else if ¬input.inRange s.cfg then some ⟨.addrRange, 1⟩
  else if ¬output.inRange s.cfg then some ⟨.addrRange, 2⟩
  else if output.overlaps input then some ⟨.overlap, 0⟩
  else none

/-- INVERT (R173): `n`, `in`, `out` in ARG0..ARG2. A singular matrix reports its failing pivot column. -/
def invertRule (s : State) : Except CmdError Effect :=
  match invertCheck s with
  | some e => .error e
  | none =>
    let n := s.u32 0
    match gjInvert (s.readMatrix (s.addr 1) n n) n with
    | .error c => .error ⟨.singularPivot, c⟩
    | .ok x => .ok ⟨none, matrixCells (s.addr 2) n x⟩

/-- The completion step of INVERT (R173, R271). -/
def execInvert (s : State) : Host.Outcome State Fault Refusal := .next (s.complete (invertRule s))

end Sys2Proof.Machine
end

