-- ==== Sys2Proof/Machine/MacArray.lean ====
section
/-! DEFINITION. The dot-product MAC array: DOTP (R221) and ENCODE (R220). -/

namespace Sys2Proof.Machine

/-- Entry `t` of the pointer array at `base` (R79). -/
def State.pointer (s : State) (base t : Nat) : Nat := (s.read32 (base + 4 * t)).toNat

/-- The buffer of `len` bytes that entry `t` of the pointer array at `base` names. -/
def State.buffer (s : State) (base len t : Nat) : Region := ⟨s.pointer base t, len⟩

/-- The first of `count` pointer entries whose buffer is out of range (R273). -/
def firstOutside (s : State) (base len count : Nat) : Option Nat :=
  (List.range count).find? fun t => !(s.buffer base len t).inRange s.cfg

/-- One lane of one output (R220): the byte that output row `j` gets at position `pos`. -/
def macByte (s : State) (tbl srcs srcv j pos : Nat) : Byte :=
  xorAll ((List.range srcs).map fun i =>
    tmul (s.readBytes (tbl + 32 * (j * srcs + i)) 32) (s.readByte (s.pointer srcv i + pos)))

/-- One output row (R220): positions `0..len-1`. -/
def macRow (s : State) (tbl srcs srcv len j : Nat) : List Byte := (List.range len).map (macByte s tbl srcs srcv j)

/-- The checks of R221, in its order. -/
def dotpCheck (s : State) : Option CmdError :=
  let len := s.u32 0
  let vlen := s.u32 1
  let tbl : Region := ⟨s.addr 2, 32 * vlen⟩
  let srcv : Region := ⟨s.addr 3, 4 * vlen⟩
  let dest : Region := ⟨s.addr 4, len⟩
  if ¬(1 ≤ len) then some ⟨.countRange, 0⟩
  else if ¬(1 ≤ vlen ∧ vlen ≤ s.cfg.kMax) then some ⟨.countRange, 1⟩
  else if ¬tbl.inRange s.cfg then some ⟨.addrRange, 2⟩
  else if ¬srcv.inRange s.cfg then some ⟨.addrRange, 3⟩
  else if ¬dest.inRange s.cfg then some ⟨.addrRange, 4⟩
  else
    match firstOutside s srcv.base len vlen with
    | some i => some ⟨.srcPtrRange, i⟩
    | none =>
      if dest.overlaps tbl || dest.overlaps srcv ||
          (List.range vlen).any (fun i => dest.overlaps (s.buffer srcv.base len i)) then
        some ⟨.overlap, 0⟩
      else none

/-- DOTP (R221): `len`, `vlen`, `tbl`, `srcv`, `dest` in ARG0..ARG4. The entry for input `i` stands at `tbl + 32*i`,
row 0 of a one-row table. -/
def dotpRule (s : State) : Except CmdError Effect :=
  match dotpCheck s with
  | some e => .error e
  | none => .ok ⟨none, cellsAt (s.addr 4) (macRow s (s.addr 2) (s.u32 1) (s.addr 3) (s.u32 0) 0)⟩

/-- Some output overlaps an input, or another output (R220). -/
def encodeOverlap (s : State) : Bool :=
  let len := s.u32 0
  let srcs := s.u32 1
  let dests := s.u32 2
  let inputs := [⟨s.addr 3, 32 * srcs * dests⟩, ⟨s.addr 4, 4 * srcs⟩, ⟨s.addr 5, 4 * dests⟩] ++
    (List.range srcs).map (s.buffer (s.addr 4) len)
  (List.range dests).any fun j =>
    inputs.any (s.buffer (s.addr 5) len j).overlaps ||
      (List.range dests).any fun j' =>
        j' != j && (s.buffer (s.addr 5) len j).overlaps (s.buffer (s.addr 5) len j')

/-- The checks of R220, in its order. -/
def encodeCheck (s : State) : Option CmdError :=
  let len := s.u32 0
  let srcs := s.u32 1
  let dests := s.u32 2
  let tbl : Region := ⟨s.addr 3, 32 * srcs * dests⟩
  let srcv : Region := ⟨s.addr 4, 4 * srcs⟩
  let destv : Region := ⟨s.addr 5, 4 * dests⟩
  if ¬(1 ≤ len) then some ⟨.countRange, 0⟩
  else if ¬(1 ≤ srcs ∧ srcs ≤ s.cfg.kMax) then some ⟨.countRange, 1⟩
  else if ¬(1 ≤ dests ∧ dests ≤ s.cfg.mMax) then some ⟨.countRange, 2⟩
  else if ¬tbl.inRange s.cfg then some ⟨.addrRange, 3⟩
  else if ¬srcv.inRange s.cfg then some ⟨.addrRange, 4⟩
  else if ¬destv.inRange s.cfg then some ⟨.addrRange, 5⟩
  else
    match firstOutside s srcv.base len srcs with
    | some i => some ⟨.srcPtrRange, i⟩
    | none =>
      match firstOutside s destv.base len dests with
      | some j => some ⟨.destPtrRange, j⟩
      | none => if encodeOverlap s then some ⟨.overlap, 0⟩ else none

/-- The stores of R220: output row `j` at the buffer that entry `j` of `destv` names. -/
def encodeStores (s : State) : List Host.Cell :=
  (List.range (s.u32 2)).flatMap fun j =>
    cellsAt (s.pointer (s.addr 5) j) (macRow s (s.addr 3) (s.u32 1) (s.addr 4) (s.u32 0) j)

/-- ENCODE (R220): `len`, `srcs`, `dests`, `tbl`, `srcv`, `destv` in ARG0..ARG5. -/
def encodeRule (s : State) : Except CmdError Effect :=
  match encodeCheck s with
  | some e => .error e
  | none => .ok ⟨none, encodeStores s⟩

/-- The completion step of DOTP (R221, R271). -/
def execDotp (s : State) : Host.Outcome State Fault Refusal := .next (s.complete (dotpRule s))

/-- The completion step of ENCODE (R220, R271). -/
def execEncode (s : State) : Host.Outcome State Fault Refusal := .next (s.complete (encodeRule s))

end Sys2Proof.Machine
end

