-- ==== Sys2Proof/Machine/Scalar.lean ====
section
/-! DEFINITION. The scalar multiplier: GF_MUL, GF_DIV, GF_INV (R135, R136, R137). None of the three reads or writes
the operand memory. -/

namespace Sys2Proof.Machine

/-- The effect of a scalar command that succeeds: RESULT and no store. -/
def scalarEffect (r : Byte) : Effect := ⟨some r, []⟩

/-- GF_MUL (R135): `a` in ARG0, `b` in ARG1; every pair of bytes has a product. -/
def gfMulRule (s : State) : Except CmdError Effect := .ok (scalarEffect (gmul (s.u8 0) (s.u8 1)))

/-- GF_DIV (R136): dividend in ARG0, divisor in ARG1; a zero divisor is a DomainError naming ARG1. -/
def gfDivRule (s : State) : Except CmdError Effect :=
  if s.u8 1 = 0#8 then .error ⟨.zeroOperand, 1⟩
  else .ok (scalarEffect (gmul (s.u8 0) (ginv (s.u8 1))))

/-- GF_INV (R137): a zero operand is a DomainError naming ARG0 (90_conflicts.md C3). -/
def gfInvRule (s : State) : Except CmdError Effect :=
  if s.u8 0 = 0#8 then .error ⟨.zeroOperand, 0⟩
  else .ok (scalarEffect (ginv (s.u8 0)))

/-- The completion step of GF_MUL (R135, R271). -/
def execGfMul (s : State) : Host.Outcome State Fault Refusal := .next (s.complete (gfMulRule s))

/-- The completion step of GF_DIV (R136, R271). -/
def execGfDiv (s : State) : Host.Outcome State Fault Refusal := .next (s.complete (gfDivRule s))

/-- The completion step of GF_INV (R137, R271). -/
def execGfInv (s : State) : Host.Outcome State Fault Refusal := .next (s.complete (gfInvRule s))

end Sys2Proof.Machine
end

