-- ==== Sys2Proof/Machine/Dispatch.lean ====
section
/-! DEFINITION. One arm per command: its completion step (R271). -/

namespace Sys2Proof.Machine

def exec (i : Instr) (s : State) : Host.Outcome State Fault Refusal :=
  match i with
  | .gfMul => Sys2Proof.Machine.execGfMul s
  | .gfDiv => Sys2Proof.Machine.execGfDiv s
  | .gfInv => Sys2Proof.Machine.execGfInv s
  | .expand => Sys2Proof.Machine.execExpand s
  | .invert => Sys2Proof.Machine.execInvert s
  | .derive => Sys2Proof.Machine.execDerive s
  | .dotp => Sys2Proof.Machine.execDotp s
  | .encode => Sys2Proof.Machine.execEncode s

end Sys2Proof.Machine
end

