-- ==== Sys2Proof/Decode.lean ====
section
/-! DEFINITION. The decoder of a CMD word (R100, R101, R102) and the encoder. -/

namespace Sys2Proof

/-- Why a CMD word is no command (R102). Both reasons complete with ILLEGAL_CMD. -/
inductive DecodeError where
  /-- CMD[31:8] is not 0. -/
  | reservedBits
  /-- RSVD is 0 and OPCODE is none of the eight of R101. -/
  | unassignedOpcode
  deriving DecidableEq, Repr

/-- OPCODE, bits [7:0] of a CMD word (R100). -/
def opcodeField (w : Word) : Byte := w.extractLsb' 0 8

/-- RSVD, bits [31:8] of a CMD word (R100). -/
def rsvdField (w : Word) : BitVec 24 := w.extractLsb' 8 24

/-- The opcode map of R101. -/
def decodeOpcode (op : Byte) : Option Instr :=
  if op = 0x01#8 then some .gfMul
  else if op = 0x02#8 then some .gfDiv
  else if op = 0x03#8 then some .gfInv
  else if op = 0x10#8 then some .expand
  else if op = 0x20#8 then some .invert
  else if op = 0x30#8 then some .derive
  else if op = 0x40#8 then some .dotp
  else if op = 0x41#8 then some .encode
  else none

/-- The command a CMD word holds, or why it is illegal (R101, R102). -/
def decode (w : Word) : Except DecodeError Instr :=
  if rsvdField w ≠ 0#24 then .error .reservedBits
  else
    match decodeOpcode (opcodeField w) with
    | some i => .ok i
    | none => .error .unassignedOpcode

/-- The CMD word of a command (R101, column "CMD word"). -/
def encode : Instr → Word
  | .gfMul => 0x00000001#32
  | .gfDiv => 0x00000002#32
  | .gfInv => 0x00000003#32
  | .expand => 0x00000010#32
  | .invert => 0x00000020#32
  | .derive => 0x00000030#32
  | .dotp => 0x00000040#32
  | .encode => 0x00000041#32

/-- The CMD word that an opcode-table row of `nbits` bits with value `w` stands for: the bits above `nbits` are 0.
`none` for a number that no 32-bit CMD register holds. -/
def tableWord (nbits w : Nat) : Option Word :=
  if w % 2 ^ nbits < 2 ^ 32 then some (BitVec.ofNat 32 (w % 2 ^ nbits)) else none

/-- The command the decoder reads from an opcode-table word. -/
def decodeTableWord (nbits w : Nat) : Option Instr :=
  match tableWord nbits w with
  | none => none
  | some v =>
    match decode v with
    | .ok i => some i
    | .error _ => none

end Sys2Proof
end

