-- ==== Sys2Proof/Machine/Flags.lean ====
section
/-! DEFINITION. The status bits as the host sees them: the code of STATUS.ERR and of ERR_INFO.CAUSE (R270), the STATUS,
ERR_INFO, CTRL, RESULT, PARAMS and MEMSIZE words (R34 to R40) and the interrupt output (R47). GFCORE has no condition
codes (R48). -/

namespace Sys2Proof.Machine

/-- STATUS.ERR (R270). -/
def ErrCode.code : ErrCode → BitVec 4
  | .ok => 0#4
  | .domain => 1#4
  | .singular => 2#4
  | .precond => 3#4
  | .illegalCmd => 4#4

/-- ERR_INFO.CAUSE (R270). -/
def Cause.code : Cause → Byte
  | .none => 0x00#8
  | .countRange => 0x01#8
  | .addrRange => 0x02#8
  | .srcPtrRange => 0x03#8
  | .destPtrRange => 0x04#8
  | .overlap => 0x05#8
  | .erasureInconsistent => 0x06#8
  | .singularPivot => 0x10#8
  | .zeroOperand => 0x20#8
  | .illegalCommand => 0x30#8

/-- STATUS (R37): BUSY bit 0, DONE bit 1, OVERRUN bit 2, ERR bits [7:4], the rest 0. -/
def State.statusWord (s : State) : Word :=
  (BitVec.ofBool s.busy).setWidth 32 ||| (BitVec.ofBool s.done).setWidth 32 <<< 1 |||
    (BitVec.ofBool s.overrun).setWidth 32 <<< 2 ||| s.err.code.setWidth 32 <<< 4

/-- ERR_INFO (R40): CAUSE bits [7:0], INDEX bits [23:8], the rest 0. -/
def ErrInfo.word (e : ErrInfo) : Word := e.cause.code.setWidth 32 ||| e.index.setWidth 32 <<< 8

/-- CTRL (R36): START and SRESET read 0, IRQ_EN is bit 2, the rest 0. -/
def State.ctrlWord (s : State) : Word := (BitVec.ofBool s.irqEn).setWidth 32 <<< 2

/-- RESULT (R39): RES bits [7:0], the rest 0. -/
def State.resultWord (s : State) : Word := s.result.setWidth 32

/-- ID (R33). -/
def idWord : Word := 0x47463238#32

/-- PARAMS (R34): KMAX bits [8:0], MMAX bits [24:16], the rest 0. -/
def paramsWord (cfg : Config) : Word :=
  (BitVec.ofNat 9 cfg.kMax).setWidth 32 ||| (BitVec.ofNat 9 cfg.mMax).setWidth 32 <<< 16

/-- MEMSIZE (R35): MEM_BYTES mod 2^32. -/
def memsizeWord (cfg : Config) : Word := BitVec.ofNat 32 cfg.memBytes

/-- The interrupt output IRQ (R47, R278): level, no state of its own. -/
def State.irq (s : State) : Bool := s.done && s.irqEn

/-- The level of an input of the platform's interrupt controller, as far as GFCORE drives it (R278). -/
def State.irqInput (s : State) (line : Nat) : Bool := line == s.cfg.irqLine && s.irq

end Sys2Proof.Machine
end

