-- ==== Sys2Proof/WellFormed.lean ====
section
/-! DEFINITION. What is well formed: a command, the parameters of R9, and the host's accesses as the duties of R326
ask for them. -/

namespace Sys2Proof

/-- Every command is well formed as syntax: it has no encoded operand (R100), and a count or address out of its range
is an error status of the command, not a malformed command (R105). -/
def Instr.wellFormed : Instr → Bool
  | .gfMul | .gfDiv | .gfInv | .expand | .invert | .derive | .dotp | .encode => true

/-- The legal values of the parameters (R9). -/
abbrev Config.Legal (c : Config) : Prop :=
  1 ≤ c.kMax ∧ c.kMax ≤ c.mMax ∧ c.mMax ≤ 256 ∧ 256 ≤ c.memBytes ∧ c.memBytes ≤ 2 ^ 32

/-- A register-port access the host may issue (R43, R326 (a)): 32 bits, at a multiple of 4 in 0x00..0xFC. -/
abbrev registerAccessLegal (size off : Nat) : Prop := size = 4 ∧ off % 4 = 0 ∧ off < 0x100

/-- A memory-port access the host may issue (R71, R326 (b)). -/
abbrev memoryAccessLegal (c : Config) (a : Nat) : Prop := a < c.memBytes

end Sys2Proof
end

