-- ==== Sys2Proof/Machine/Ports.lean ====
section
/-! DEFINITION. The register port (R32 to R44), the CTRL write (R277) with the soft reset (R311, R314), and the memory
port (R71). -/

namespace Sys2Proof.Machine

/-! ## The register window -/

/-- The registers of the window (R32). -/
inductive Reg where
  | id | params | memsize | ctrl | status | cmd | result | errInfo
  | arg (i : Fin 9)
  | reserved
  deriving DecidableEq, Repr

/-- The register at a word offset of the window (R32). -/
def regAt (off : Nat) : Reg :=
  match off with
  | 0x00 => .id
  | 0x04 => .params
  | 0x08 => .memsize
  | 0x0C => .ctrl
  | 0x10 => .status
  | 0x14 => .cmd
  | 0x18 => .result
  | 0x1C => .errInfo
  | 0x20 => .arg 0
  | 0x24 => .arg 1
  | 0x28 => .arg 2
  | 0x2C => .arg 3
  | 0x30 => .arg 4
  | 0x34 => .arg 5
  | 0x38 => .arg 6
  | 0x3C => .arg 7
  | 0x40 => .arg 8
  | _ => .reserved

/-- What a register reads as (R33 to R42). A read has no side effect (R43). -/
def State.readReg (s : State) : Reg → Word
  | .id => idWord
  | .params => paramsWord s.cfg
  | .memsize => memsizeWord s.cfg
  | .ctrl => s.ctrlWord
  | .status => s.statusWord
  | .cmd => s.cmd
  | .result => s.resultWord
  | .errInfo => s.errInfo.word
  | .arg i => s.args.get i
  | .reserved => 0#32

/-- Byte `t` of the register window on a byte-addressed bus (R76): register bit `8t` is bit 0 of byte `t`. -/
def State.windowByte (s : State) (off : Nat) : Byte :=
  (s.readReg (regAt (off / 4 * 4))).extractLsb' (8 * (off % 4)) 8

/-- Where the platform puts window offset `off` on the host bus (R74). -/
def registerBusAddress (cfg : Config) (off : Nat) : Nat := cfg.regBase + off

/-- Where the platform puts operand-memory address `a` on the host bus (R74). -/
def memoryBusAddress (cfg : Config) (a : Nat) : Nat := cfg.memBase + a

/-! ## The soft reset -/

/-- How the rule of a command ends in a state (40_scalar.md to 44_dataplane.md). -/
def commandRule (i : Instr) (s : State) : Except CmdError Effect :=
  match i with
  | .gfMul => gfMulRule s
  | .gfDiv => gfDivRule s
  | .gfInv => gfInvRule s
  | .expand => expandRule s
  | .invert => invertRule s
  | .derive => deriveRule s
  | .dotp => dotpRule s
  | .encode => encodeRule s

/-- The error of an illegal CMD word (R102). -/
def illegalCommandError : CmdError := ⟨.illegalCommand, 0⟩

/-- How the command of a CMD word ends: as its rule says, or with ILLEGAL_CMD (R102). -/
def wordRule (w : Word) (s : State) : Except CmdError Effect :=
  match decode w with
  | .ok i => commandRule i s
  | .error _ => .error illegalCommandError

/-- Soft reset (R311): every register at its reset value, the phase IDLE; while BUSY, the latched command is aborted
(R314). -/
def State.softReset (s : State) : State :=
  match s.engine with
  | .idle => s.resetRegisters
  | .busy l _ => (s.abort (wordRule l.cmd s)).resetRegisters

/-! ## Register writes -/

/-- A memory write that the agent issued before its request number `seq` is still on its way (R326 (c)). -/
def writeInFlight (agent seq : Nat) (pending : List Request) : Bool :=
  pending.any fun r =>
    r.agent == agent && decide (r.seq < seq) &&
      match r.access with
      | .memWrite _ _ => true
      | _ => false

/-- A START request (R277): while BUSY it is dropped and OVERRUN is set (R323), else it is accepted. On a host bus that
reorders, an accepted START with an earlier memory write of its agent in flight has no step (U20). -/
def State.start (s : State) (agent seq : Nat) : Host.Outcome State Fault Refusal :=
  if s.busy then .next { s with overrun := true }
  else if !s.cfg.hostBusOrdered && writeInFlight agent seq s.inputs then .refused (.memoryWriteInFlight agent)
  else .next (s.drawDelay.acceptStart s.nextDelay)

/-- A CTRL write (R277): SRESET bit 1, IRQ_EN bit 2, START bit 0. -/
def State.writeCtrl (s : State) (agent seq : Nat) (v : Word) : Host.Outcome State Fault Refusal :=
  if v[1] then .next s.softReset
  else if v[0] then { s with irqEn := v[2] }.start agent seq
  else .next { s with irqEn := v[2] }

/-- A CMD write: ignored while BUSY (R38, R44). -/
def State.writeCmd (s : State) (v : Word) : State := if s.busy then s else { s with cmd := v }

/-- An ARGi write: ignored while BUSY (R41, R44). -/
def State.writeArg (s : State) (i : Fin 9) (v : Word) : State :=
  if s.busy then s else { s with args := s.args.set i v }

/-- A register write (R33 to R42, R44). Read-only and reserved registers ignore it. -/
def State.writeReg (s : State) (agent seq : Nat) (r : Reg) (v : Word) : Host.Outcome State Fault Refusal :=
  match r with
  | .ctrl => s.writeCtrl agent seq v
  | .status => .next (s.writeStatus v)
  | .cmd => .next (s.writeCmd v)
  | .arg i => .next (s.writeArg i v)
  | .id | .params | .memsize | .result | .errInfo | .reserved => .next s

/-! ## The ports -/

/-- A register-port access is 32 bits wide, at a multiple of 4 below 0x100; any other has no step (R43, U18). -/
def onRegisterPort (size off : Nat) (act : Reg → Host.Outcome State Fault Refusal) :
    Host.Outcome State Fault Refusal :=
  if size ≠ 4 then .refused (.registerAccessNotWord size)
  else if off % 4 ≠ 0 then .refused (.registerOffsetMisaligned off)
  else if 0x100 ≤ off then .fault (.registerOffsetOutside off)
  else act (regAt off)

/-- A memory-port access is at an address below MEM_BYTES; any other has no step (R71, U19). -/
def onMemoryPort (cfg : Config) (a : Nat) (next : State) : Host.Outcome State Fault Refusal :=
  if a < cfg.memBytes then .next next else .fault (.memoryAddressOutside a)

/-- The value a read returns goes back to the agent that asked. -/
def State.reply (s : State) (r : Request) (v : Value) : State :=
  { s with replies := ⟨r.agent, r.seq, v⟩ :: s.replies }

/-- HostWrite8 (R71). -/
def State.hostWrite (s : State) (a : Nat) (v : Byte) : State := { s with mem := Memory.write s.mem a v }

/-- Perform an access that takes effect now; `rest` is the queue without it. POLL (R107) reads STATUS and stays in the
queue while that read shows BUSY. -/
def perform (r : Request) (rest : List Request) (s : State) : Host.Outcome State Fault Refusal :=
  let s' := { s with inputs := rest }
  match r.access with
  | .regRead size off => onRegisterPort size off fun reg => .next (s'.reply r (.word (s.readReg reg)))
  | .regWrite size off v => onRegisterPort size off fun reg => s'.writeReg r.agent r.seq reg v
  | .memRead a => onMemoryPort s.cfg a (s'.reply r (.byte (s.readByte a)))
  | .memWrite a v => onMemoryPort s.cfg a (s'.hostWrite a v)
  | .poll => .next ((if s.busy then s else s').reply r (.word s.statusWord))
  | .hardReset => .next s'.hardReset

end Sys2Proof.Machine
end

