-- ==== Sys2Proof/Machine/Schedule.lean ====
section
/-! DEFINITION. Who moves next (R5, R279, R320): the engine's completion step, or one access of the outside. -/

namespace Sys2Proof.Machine

/-- The completion step of the latched command (R271): the command's meaning, or ILLEGAL_CMD for a word that holds
none (R102). -/
def completeLatched (l : Latched) (s : State) : Host.Outcome State Fault Refusal :=
  match decode l.cmd with
  | .ok i => exec i s
  | .error _ => .next (s.raise illegalCommandError)

/-- A memory-port access is held while BUSY (R84). Register-port accesses never are, nor is the reset input. -/
def Access.held : Access → Bool
  | .memRead _ | .memWrite _ _ => true
  | .regRead _ _ | .regWrite _ _ _ | .poll | .hardReset => false

/-- The first access that is not held, and the queue without it. -/
def takeUnheld : List Request → Option (Request × List Request)
  | [] => none
  | r :: rest =>
    if r.access.held then
      match takeUnheld rest with
      | none => none
      | some (q, others) => some (q, r :: others)
    else some (r, rest)

/-- One step. IDLE: the next access of the outside, in the order GFCORE accepts them (R83); with none, GFCORE stays
idle (R286). BUSY: while the command's delay lasts, the next access that is not held; then the completion step. -/
def advance (s : State) : Host.Outcome State Fault Refusal :=
  match s.engine with
  | .idle =>
    match s.inputs with
    | [] => .next s
    | r :: rest => perform r rest s
  | .busy l 0 => completeLatched l s
  | .busy l (wait + 1) =>
    match takeUnheld s.inputs with
    | none => completeLatched l s
    | some (r, rest) => perform r rest { s with engine := .busy l wait }

/-- `s` with a command word placed where the next step runs it: written to CMD and started, its completion step next. -/
def State.withCommand (s : State) (w : Word) : State := { s with cmd := w }.acceptStart 0

end Sys2Proof.Machine
end

