-- ==== Sys2Proof/Machine/Step.lean ====
section
/-! DEFINITION. The step, and the placing of an opcode-table word where the next step runs it. -/

namespace Sys2Proof.Machine

/-- One step of GFCORE and its host. -/
def step (s : State) : Host.Outcome State Fault Refusal := advance s

/-- GFCORE fetches nothing (R31): a command runs when its word stands in CMD and START is written. This is the state
after that START, with the completion step next. -/
def State.withFetchWord (s : State) (nbits w : Nat) : State :=
  s.withCommand (BitVec.ofNat 32 (w % 2 ^ nbits))

end Sys2Proof.Machine
end

