-- ==== Sys2Proof/Machine/Assembler.lean ====
section
/-! DEFINITION. Host programs (R107, R108): the statements a GFCORE program is written in, and the port accesses each
expands to. Programs are what stands in `State.inputs`. -/

namespace Sys2Proof.Machine

/-- A host statement (R107), a command mnemonic (R108) with its operands in ARG order, or the option `.irq`. A register
is named by its window offset (R32). -/
inductive Statement where
  | wr (off : Nat) (v : Word)
  | rd (off : Nat)
  | sb (a : Nat) (bytes : List Byte)
  | sw (a : Nat) (v : Word)
  | lb (a n : Nat)
  | poll
  | command (i : Instr) (operands : List Word) (nowait : Bool)
  | irq (on : Bool)
  deriving DecidableEq, Repr

/-- A mnemonic takes exactly the operands of its command (R108); registers are whole words of the window (R43). -/
def Statement.wellFormed : Statement → Bool
  | .wr off _ | .rd off => decide (registerAccessLegal 4 off)
  | .command i operands _ => operands.length == arity i
  | .sb _ _ | .sw _ _ | .lb _ _ | .poll | .irq _ => true

/-- Byte-by-byte memory-port writes from `a` on (R107, SB). -/
def byteWrites (a : Nat) (bytes : List Byte) : List Access := (cellsAt a bytes).map fun c => .memWrite c.1 c.2

/-- The four bytes of a word, little-endian (R76). -/
def wordBytes (v : Word) : List Byte := (List.range 4).map fun t => v.extractLsb' (8 * t) 8

/-- Writes of ARGi from register `i` on (R108). -/
def argWrites : Nat → List Word → List Access
  | _, [] => []
  | i, v :: rest => .regWrite 4 (0x20 + 4 * i) v :: argWrites (i + 1) rest

/-- The accesses one statement expands to, where the option `.irq` stands at `ie` (R107, R108). -/
def Statement.accesses (ie : Bool) : Statement → List Access
  | .wr off v => [.regWrite 4 off v]
  | .rd off => [.regRead 4 off]
  | .sb a bytes => byteWrites a bytes
  | .sw a v => byteWrites a (wordBytes v)
  | .lb a n => (List.range n).map fun t => .memRead (a + t)
  | .poll => [.poll]
  | .command i operands nowait =>
    argWrites 0 operands ++
      [.regWrite 4 0x14 (encode i), .regWrite 4 0x0C (0x00000001#32 ||| (BitVec.ofBool ie).setWidth 32 <<< 2)] ++
      if nowait then [] else [.poll]
  | .irq _ => []

/-- A program's accesses in order; `.irq` acts on the mnemonics that follow it (R108). -/
def assemble : Bool → List Statement → List Access
  | _, [] => []
  | ie, st :: rest =>
    let ie' := match st with
      | .irq on => on
      | _ => ie
    st.accesses ie' ++ assemble ie' rest

/-- The accesses as the requests of one agent, numbered in program order from `seq` on. -/
def requestsFrom (agent : Nat) : Nat → List Access → List Request
  | _, [] => []
  | seq, a :: rest => ⟨agent, seq, a⟩ :: requestsFrom agent (seq + 1) rest

/-- A state whose host runs a program: the one way a program comes to GFCORE (R31: the host sequences commands). -/
def State.withProgram (s : State) (agent : Nat) (program : List Statement) : State :=
  { s with inputs := s.inputs ++ requestsFrom agent 0 (assemble false program) }

end Sys2Proof.Machine
end

