-- ==== Sys2Proof/Safety.lean ====
section
/-! DEFINITION. The terms claims use: the invariant of the machine, the host that keeps its duties (R326), when each
block command runs to `complete(OK)`, and how an error is reported. -/

namespace Sys2Proof.Machine

/-! ## Regions -/

/-- In range (R15). -/
abbrev Region.Inside (r : Region) (cfg : Config) : Prop := r.size = 0 ∨ r.base + r.size ≤ cfg.memBytes

/-- No address lies in both regions (R15). -/
abbrev Region.Apart (r q : Region) : Prop := ∀ a, r.Has a → ¬q.Has a

/-! ## The invariant -/

/-- While BUSY, the latched command equals CMD and ARG0..ARG8 (R45), and DONE, ERR and ERR_INFO are 0 (R277). -/
abbrev State.LatchCoherent (s : State) : Prop :=
  ∀ l wait, s.engine = .busy l wait →
    l.cmd = s.cmd ∧ l.args = s.args ∧ s.done = false ∧ s.err = .ok ∧ s.errInfo = noError

/-- STATUS.ERR is the code ERR_INFO.CAUSE is reported under, and ERR_INFO is 0 when ERR = OK (R40, R270). -/
abbrev State.ErrorCoherent (s : State) : Prop :=
  s.err = s.errInfo.cause.err ∧ (s.errInfo.cause = .none → s.errInfo.index = 0#16)

/-- Every listed byte lies in the operand memory (R70). -/
abbrev State.MemoryInside (s : State) : Prop := ∀ c ∈ s.mem, c.1 < s.cfg.memBytes

/-- What every reachable state satisfies. -/
abbrev State.Inv (s : State) : Prop :=
  s.cfg.Legal ∧ Memory.wf s.mem ∧ s.MemoryInside ∧ s.LatchCoherent ∧ s.ErrorCoherent

/-! ## The host's duties -/

/-- An access the host may issue (R326 (a), (b)); the reset input and POLL always are. -/
def Request.Dutiful (cfg : Config) (r : Request) : Prop :=
  match r.access with
  | .regRead size off => registerAccessLegal size off
  | .regWrite size off _ => registerAccessLegal size off
  | .memRead a => memoryAccessLegal cfg a
  | .memWrite a _ => memoryAccessLegal cfg a
  | .poll => True
  | .hardReset => True

/-- Every access still to come is one the host may issue. -/
def State.Dutiful (s : State) : Prop := ∀ r ∈ s.inputs, r.Dutiful s.cfg

/-! ## How a command ends -/

/-- The command's completion step is `raise Error(err, cause, index)` with the numbers of R270: STATUS.ERR and ERR_INFO
read so, and nothing else is done (R271, R272). ERR_INFO.INDEX has 16 bits (R40, log entry 17). -/
def Reports (i : Instr) (s : State) (err cause index : Nat) : Prop :=
  ∃ t, exec i s = .next t ∧ ((t.readReg .status).extractLsb' 4 4).toNat = err ∧
    (t.readReg .errInfo).toNat = cause + 2 ^ 8 * (index % 2 ^ 16) ∧
    t = { s with err := t.err, errInfo := t.errInfo, engine := .idle, done := true }

/-- `t` differs from `s` as a successful block command's completion says, and in memory (R271). -/
def CompletedFrom (s t : State) : Prop :=
  t = { s with mem := t.mem, err := .ok, errInfo := noError, engine := .idle, done := true }

/-- Every check of R152 passes. -/
def ExpandRuns (s : State) : Prop :=
  let k := s.u32 0
  let rows := s.u32 1
  (1 ≤ k ∧ k ≤ s.cfg.kMax) ∧ (1 ≤ rows ∧ rows ≤ s.cfg.mMax) ∧
    (Region.mk (s.addr 2) (rows * k)).Inside s.cfg ∧ (Region.mk (s.addr 3) (32 * k * rows)).Inside s.cfg ∧
    (Region.mk (s.addr 3) (32 * k * rows)).Apart ⟨s.addr 2, rows * k⟩

/-- Every check of R173 passes. -/
def InvertRuns (s : State) : Prop :=
  let n := s.u32 0
  (1 ≤ n ∧ n ≤ s.cfg.kMax) ∧ (Region.mk (s.addr 1) (n * n)).Inside s.cfg ∧
    (Region.mk (s.addr 2) (n * n)).Inside s.cfg ∧ (Region.mk (s.addr 2) (n * n)).Apart ⟨s.addr 1, n * n⟩

/-- `D[r]` of R190, at DERIVE's arguments. -/
def denseAt (s : State) (r : Nat) : Byte := s.readByte (s.addr 5 + r)

/-- `S[p]` of R190, at DERIVE's arguments. -/
def sparseAt (s : State) (p : Nat) : Nat := (s.readByte (s.addr 6 + p)).toNat

/-- The descriptor is consistent: (a) to (f) of R190 for `k`, `m`, `n_err`, `n_src_err` in ARG0..ARG3. -/
def DescriptorConsistent (s : State) : Prop :=
  (∀ r < s.u32 1, denseAt s r = 0#8 ∨ denseAt s r = 1#8) ∧
    (∀ p < s.u32 2 - 1, sparseAt s p < sparseAt s (p + 1)) ∧
    (∀ p < s.u32 2, sparseAt s p < s.u32 1) ∧
    (∀ p < s.u32 2, denseAt s (sparseAt s p) = 1#8) ∧
    (List.range (s.u32 1)).countP (fun r => denseAt s r = 1#8) = s.u32 2 ∧
    (List.range (s.u32 2)).countP (fun p => sparseAt s p < s.u32 0) = s.u32 3

/-- The counts of R196 are in range. -/
def DeriveCounts (s : State) : Prop :=
  (1 ≤ s.u32 0 ∧ s.u32 0 ≤ s.cfg.kMax) ∧ (s.u32 0 ≤ s.u32 1 ∧ s.u32 1 ≤ s.cfg.mMax) ∧
    s.u32 2 ≤ s.u32 1 - s.u32 0 ∧ s.u32 3 ≤ min (s.u32 2) (s.u32 0)

/-- The input regions of R196: `enc`, `dense`, `sparse`. -/
def deriveInputs (s : State) : List Region :=
  [⟨s.addr 4, s.u32 1 * s.u32 0⟩, ⟨s.addr 5, s.u32 1⟩, ⟨s.addr 6, s.u32 2⟩]

/-- The output regions of R196: `dec`, `idx`. -/
def deriveOutputs (s : State) : List Region := [⟨s.addr 7, s.u32 2 * s.u32 0⟩, ⟨s.addr 8, s.u32 0⟩]

/-- No output of R196 overlaps an input or the other output. -/
def DeriveApart (s : State) : Prop :=
  (∀ o ∈ deriveOutputs s, ∀ i ∈ deriveInputs s, o.Apart i) ∧
    (Region.mk (s.addr 7) (s.u32 2 * s.u32 0)).Apart ⟨s.addr 8, s.u32 0⟩

/-- Every check of R196 passes. -/
def DeriveRuns (s : State) : Prop :=
  DeriveCounts s ∧ (∀ r ∈ deriveInputs s ++ deriveOutputs s, r.Inside s.cfg) ∧ DeriveApart s ∧
    DescriptorConsistent s

/-- The direct checks of R221, before a pointer is read. -/
def DotpDirect (s : State) : Prop :=
  1 ≤ s.u32 0 ∧ (1 ≤ s.u32 1 ∧ s.u32 1 ≤ s.cfg.kMax) ∧ (Region.mk (s.addr 2) (32 * s.u32 1)).Inside s.cfg ∧
    (Region.mk (s.addr 3) (4 * s.u32 1)).Inside s.cfg ∧ (Region.mk (s.addr 4) (s.u32 0)).Inside s.cfg

/-- DOTP's output overlaps no input (R221). -/
def DotpApart (s : State) : Prop :=
  (Region.mk (s.addr 4) (s.u32 0)).Apart ⟨s.addr 2, 32 * s.u32 1⟩ ∧
    (Region.mk (s.addr 4) (s.u32 0)).Apart ⟨s.addr 3, 4 * s.u32 1⟩ ∧
    ∀ i < s.u32 1, (Region.mk (s.addr 4) (s.u32 0)).Apart (s.buffer (s.addr 3) (s.u32 0) i)

/-- Every check of R221 passes. -/
def DotpRuns (s : State) : Prop :=
  DotpDirect s ∧ (∀ i < s.u32 1, (s.buffer (s.addr 3) (s.u32 0) i).Inside s.cfg) ∧ DotpApart s

/-- The direct checks of R220, before a pointer is read. -/
def EncodeDirect (s : State) : Prop :=
  1 ≤ s.u32 0 ∧ (1 ≤ s.u32 1 ∧ s.u32 1 ≤ s.cfg.kMax) ∧ (1 ≤ s.u32 2 ∧ s.u32 2 ≤ s.cfg.mMax) ∧
    (Region.mk (s.addr 3) (32 * s.u32 1 * s.u32 2)).Inside s.cfg ∧
    (Region.mk (s.addr 4) (4 * s.u32 1)).Inside s.cfg ∧ (Region.mk (s.addr 5) (4 * s.u32 2)).Inside s.cfg

/-- Output buffer `j` of ENCODE, and input buffer `i` (R220). -/
def encodeOutput (s : State) (j : Nat) : Region := s.buffer (s.addr 5) (s.u32 0) j

def encodeInput (s : State) (i : Nat) : Region := s.buffer (s.addr 4) (s.u32 0) i

/-- No output of R220 overlaps an input or another output. -/
def EncodeApart (s : State) : Prop :=
  ∀ j < s.u32 2,
    (encodeOutput s j).Apart ⟨s.addr 3, 32 * s.u32 1 * s.u32 2⟩ ∧
      (encodeOutput s j).Apart ⟨s.addr 4, 4 * s.u32 1⟩ ∧ (encodeOutput s j).Apart ⟨s.addr 5, 4 * s.u32 2⟩ ∧
      (∀ i < s.u32 1, (encodeOutput s j).Apart (encodeInput s i)) ∧
      ∀ j' < s.u32 2, j' ≠ j → (encodeOutput s j).Apart (encodeOutput s j')

/-- Every check of R220 passes. -/
def EncodeRuns (s : State) : Prop :=
  EncodeDirect s ∧ (∀ i < s.u32 1, (encodeInput s i).Inside s.cfg) ∧
    (∀ j < s.u32 2, (encodeOutput s j).Inside s.cfg) ∧ EncodeApart s

/-! ## Linear algebra over the field, for the claims about elimination -/

/-- The exclusive-or of `f 0, ..., f (n-1)` (R12). -/
def xorSum (n : Nat) (f : Nat → Byte) : Byte := xorAll ((List.range n).map f)

/-- `g` is the inverse of the `n×n` matrix `f` on both sides (R172). -/
def InverseOf (n : Nat) (f g : Nat → Nat → Byte) : Prop :=
  ∀ r < n, ∀ c < n,
    xorSum n (fun t => gmul (f r t) (g t c)) = (if r = c then 1#8 else 0#8) ∧
      xorSum n (fun t => gmul (g r t) (f t c)) = (if r = c then 1#8 else 0#8)

/-- Columns `0..c` of the `n`-row matrix `f` are linearly dependent (R171). -/
def ColumnsDependent (n : Nat) (f : Nat → Nat → Byte) (c : Nat) : Prop :=
  ∃ w : Nat → Byte, (∃ j ≤ c, w j ≠ 0#8) ∧ ∀ r < n, xorSum (c + 1) (fun j => gmul (w j) (f r j)) = 0#8

end Sys2Proof.Machine
end

