-- ==== Sys2Proof/Certificates/Slice0/Obligations.lean ====
section
/-! DEFINITION. The statements about GFCORE for the provers. Each docstring names the rule of spec/ it formalises. -/

open Sys2Proof Sys2Proof.Machine

/-! ## The field and the table entry -/

/-- R130: XOR is addition, 0x11D is irreducible over GF(2), and `gmul` is the polynomial product reduced modulo it. -/
def Obligations.MultiplicationIsPolynomialProductModulo0x11D : Prop :=
  let poly : (n : Nat) → BitVec n → Polynomial (ZMod 2) := fun n v =>
    ∑ i ∈ Finset.range n, if v.getLsbD i then Polynomial.X ^ i else 0
  Irreducible (poly 9 0x11D#9) ∧
    ∀ a b : Byte,
      poly 8 (a ^^^ b) = poly 8 a + poly 8 b ∧ poly 9 0x11D#9 ∣ poly 8 a * poly 8 b - poly 8 (gmul a b)

/-- R133: the field laws. -/
def Obligations.FieldLawsHoldForAllBytes : Prop :=
  ∀ a b c : Byte,
    gmul a b = gmul b a ∧ gmul a (gmul b c) = gmul (gmul a b) c ∧
      gmul a (b ^^^ c) = gmul a b ^^^ gmul a c ∧ gmul a 1#8 = a ∧ gmul a 0#8 = 0#8 ∧
      (a ≠ 0#8 → gmul a (ginv a) = 1#8)

/-- R132: for a nonzero byte `ginv` is the unique byte with product 1, and 0 has none. -/
def Obligations.InverseIsTheUniqueByteWithProductOne : Prop :=
  (∀ a : Byte, a ≠ 0#8 → gmul a (ginv a) = 1#8 ∧ ∀ b, gmul a b = 1#8 → b = ginv a) ∧
    ∀ b : Byte, gmul 0#8 b ≠ 1#8

/-- R134: the powers of 0x02 are the nonzero bytes, each once, and products and inverses follow the exponents. -/
def Obligations.PowersOfTwoAreTheNonzeroBytes : Prop :=
  (∀ a : Byte, a ≠ 0#8 → ∃! i, i < 255 ∧ gexp i = a) ∧ (∀ i, gexp i ≠ 0#8) ∧
    gexp 255 = gexp 0 ∧ gexp 0 = 1#8 ∧
    (∀ i < 255, ∀ j < 255, gmul (gexp i) (gexp j) = gexp ((i + j) % 255)) ∧
    ∀ i < 255, ginv (gexp i) = gexp ((255 - i) % 255)

/-- R150: the table entry holds the low-nibble products, then the high-nibble products. -/
def Obligations.TableEntryHoldsTheNibbleProducts : Prop :=
  (∀ c : Byte, (tableEntry c).length = 32 ∧ ∀ t < 16,
      (tableEntry c).getD t 0#8 = gmul c (BitVec.ofNat 8 t) ∧
        (tableEntry c).getD (16 + t) 0#8 = gmul c (BitVec.ofNat 8 t <<< 4)) ∧
    tableEntry 0#8 = List.replicate 32 0#8 ∧
    (∀ t < 16, (tableEntry 1#8).getD t 0#8 = BitVec.ofNat 8 t ∧
        (tableEntry 1#8).getD (16 + t) 0#8 = BitVec.ofNat 8 t <<< 4) ∧
    ∀ c : Byte, (tableEntry c).getD 0 0#8 = 0#8 ∧ (tableEntry c).getD 16 0#8 = 0#8 ∧
      (tableEntry c).getD 1 0#8 = c

/-- R151: the lookup is defined for any entry, and in the entry of `c` it multiplies by `c`. -/
def Obligations.TableLookupMultipliesByTheCoefficient : Prop :=
  (∀ (table : List Byte) (x : Byte),
      tmul table x = table.getD (x.toNat % 16) 0#8 ^^^ table.getD (16 + x.toNat / 16) 0#8) ∧
    ∀ c x : Byte, tmul (tableEntry c) x = gmul c x

/-! ## Encoding -/

/-- R101: decode and encode agree both ways, and the eight words are those of the opcode map. -/
def Obligations.DecodeAndEncodeAgreeOnEveryWord : Prop :=
  ∀ (w : Word) (i : Instr),
    (decode w = .ok i ↔ w = encode i) ∧
      (decode w = .ok i ↔
        (w.toNat, i) ∈ [(0x01, Instr.gfMul), (0x02, .gfDiv), (0x03, .gfInv), (0x10, .expand), (0x20, .invert),
          (0x30, .derive), (0x40, .dotp), (0x41, .encode)])

/-- R101, R102, on words written out: six legal words, and illegal ones with the reason. -/
def Obligations.SampleWordsDecodeAsTheMapSays : Prop :=
  decode 0x00000001#32 = .ok .gfMul ∧ decode 0x00000010#32 = .ok .expand ∧ decode 0x00000020#32 = .ok .invert ∧
    decode 0x00000030#32 = .ok .derive ∧ decode 0x00000040#32 = .ok .dotp ∧ decode 0x00000041#32 = .ok .encode ∧
    decode 0x00000000#32 = .error .unassignedOpcode ∧ decode 0x00000042#32 = .error .unassignedOpcode ∧
    decode 0x00000101#32 = .error .reservedBits ∧ decode 0xFFFFFFFF#32 = .error .reservedBits

/-- R102: a START with an illegal CMD word is accepted like any other, and its completion step reports ILLEGAL_CMD with
CAUSE 0x30 and INDEX 0 and changes nothing else. -/
def Obligations.IllegalWordCompletesWithIllegalCmd : Prop :=
  (∀ (s : State) (l : Latched) (wait : Nat), s.engine = .busy l wait →
      l.cmd.toNat ∉ [0x01, 0x02, 0x03, 0x10, 0x20, 0x30, 0x40, 0x41] →
      ∃ t, completeLatched l s = .next t ∧ t.err.code = 4#4 ∧ t.readReg .errInfo = 0x00000030#32 ∧
        t = { s with err := t.err, errInfo := t.errInfo, engine := .idle, done := true }) ∧
    ∀ (s : State) (r : Request) (rest : List Request) (v : Word), s.busy = false →
      s.cfg.hostBusOrdered = true → r.access = .regWrite 4 0x0C v → v[1] = false → v[0] = true →
      s.cmd.toNat ∉ [0x01, 0x02, 0x03, 0x10, 0x20, 0x30, 0x40, 0x41] →
      ∃ t wait, perform r rest s = .next t ∧ t.busy = true ∧ t.engine = .busy ⟨s.cmd, s.args⟩ wait

/-! ## The step -/

/-- A step that completes runs the latched command, with nothing around it: the completion step (R271) of a legal word
is the command's meaning. It comes when no host access may still take effect, or none can (R84, R320; log entry 1). -/
def Obligations.StepRunsTheDecodedCommand : Prop :=
  ∀ (s : State) (l : Latched) (wait : Nat), s.engine = .busy l wait →
    (wait = 0 ∨ takeUnheld s.inputs = none) →
    step s = completeLatched l s ∧ ∀ i, decode l.cmd = .ok i → step s = exec i s

/-- The model's choice (log entry 12): a command word placed by `withFetchWord` is the next thing the step runs, with
the arguments the registers held. -/
def Obligations.PlacedWordIsRunByTheNextStep : Prop :=
  ∀ (s : State) (i : Instr),
    decodeTableWord 32 (encode i).toNat = some i ∧
      ∃ t, s.withFetchWord 32 (encode i).toNat = t ∧ t.commandArgs = s.args ∧ t.mem = s.mem ∧ step t = exec i t

/-- Host accesses and the engine interleave (R279, R320): an idle machine performs the host's first access, a busy one
with delay left the first that is not held, and an idle machine with none stays as it is (R286). Which of the two moves is
the model's choice (log entries 1, 2, 3, 20). -/
def Obligations.StepPerformsTheNextAccess : Prop :=
  ∀ s : State,
    (s.engine = .idle → s.inputs = [] → step s = .next s) ∧
      (∀ r rest, s.engine = .idle → s.inputs = r :: rest → step s = perform r rest s) ∧
      ∀ l wait r rest, s.engine = .busy l (wait + 1) → takeUnheld s.inputs = some (r, rest) →
        step s = perform r rest { s with engine := .busy l wait } ∧ r ∈ s.inputs ∧ r.access.held = false

/-- R108: the expansion of a mnemonic writes its operands to ARG0.., its word to CMD, and starts it; the next step is
the command's completion (log entry 1: no other access is left). Registers it does not use and memory are
untouched. -/
def Obligations.MnemonicRunsItsCommand : Prop :=
  ∀ (s : State) (i : Instr) (operands : List Word), s.engine = .idle → s.inputs = [] →
    s.cfg.hostBusOrdered = true → operands.length = arity i →
    ∃ t, Host.Core.run core (arity i + 2) (s.withProgram 0 [.command i operands true]) = .next t ∧
      t.engine = .busy ⟨encode i, t.args⟩ s.nextDelay ∧
      (∀ n : Fin 9, t.args.get n = operands.getD n.val (s.args.get n)) ∧
      t.mem = s.mem ∧ t.inputs = [] ∧ step t = exec i t

/-! ## Scalar commands -/

/-- R135: GF_MUL completes in every state with the product in RESULT; nothing but RESULT, ERR, ERR_INFO, DONE and the
phase changes. -/
def Obligations.GfMulLeavesTheProductInResult : Prop :=
  decode 0x00000001#32 = .ok .gfMul ∧ gmul 0x80#8 0x02#8 = 0x1D#8 ∧ gmul 0x53#8 0xCA#8 = 0x8F#8 ∧
    (∀ x : Byte, gmul 0#8 x = 0#8 ∧ gmul x 0#8 = 0#8 ∧ gmul 1#8 x = x) ∧
    ∀ s : State, ∃ t, exec .gfMul s = .next t ∧
      t.readReg .result =
        (gmul ((s.commandArgs.get 0).setWidth 8) ((s.commandArgs.get 1).setWidth 8)).setWidth 32 ∧
      t.readReg .errInfo = 0#32 ∧
      t = { s with result := t.result, err := .ok, errInfo := noError, engine := .idle, done := true }

/-- R136: GF_DIV completes with the dividend times the divisor's inverse; a zero divisor is DOMAIN naming ARG1, with
RESULT unchanged. -/
def Obligations.GfDivLeavesTheQuotientOrReportsDomain : Prop :=
  decode 0x00000002#32 = .ok .gfDiv ∧ gmul 0x01#8 (ginv 0x02#8) = 0x8E#8 ∧
    (∀ a b : Byte, b ≠ 0#8 →
      gmul 0#8 (ginv b) = 0#8 ∧ gmul b (ginv b) = 1#8 ∧ gmul a (ginv 1#8) = a) ∧
    ∀ s : State,
      ((s.commandArgs.get 1).setWidth 8 ≠ 0#8 → ∃ t, exec .gfDiv s = .next t ∧
          t.readReg .result =
            (gmul ((s.commandArgs.get 0).setWidth 8) (ginv ((s.commandArgs.get 1).setWidth 8))).setWidth 32 ∧
          t.readReg .errInfo = 0#32 ∧
          t = { s with result := t.result, err := .ok, errInfo := noError, engine := .idle, done := true }) ∧
        ((s.commandArgs.get 1).setWidth 8 = 0#8 → ∃ t, exec .gfDiv s = .next t ∧
          t.err.code = 1#4 ∧ t.readReg .errInfo = 0x00000120#32 ∧
          t = { s with err := t.err, errInfo := t.errInfo, engine := .idle, done := true })

/-- R137: GF_INV completes with the inverse; a zero operand is DOMAIN naming ARG0, with RESULT unchanged. -/
def Obligations.GfInvLeavesTheInverseOrReportsDomain : Prop :=
  decode 0x00000003#32 = .ok .gfInv ∧ ginv 0x53#8 = 0x8C#8 ∧ ginv 1#8 = 1#8 ∧ ginv 0x02#8 = 0x8E#8 ∧
    ginv 0x8E#8 = 0x02#8 ∧
    (∀ a : Byte, a ≠ 0#8 → ginv (ginv a) = a) ∧
    ∀ s : State,
      ((s.commandArgs.get 0).setWidth 8 ≠ 0#8 → ∃ t, exec .gfInv s = .next t ∧
          t.readReg .result = (ginv ((s.commandArgs.get 0).setWidth 8)).setWidth 32 ∧
          t.readReg .errInfo = 0#32 ∧
          t = { s with result := t.result, err := .ok, errInfo := noError, engine := .idle, done := true }) ∧
        ((s.commandArgs.get 0).setWidth 8 = 0#8 → ∃ t, exec .gfInv s = .next t ∧
          t.err.code = 1#4 ∧ t.readReg .errInfo = 0x00000020#32 ∧
          t = { s with err := t.err, errInfo := t.errInfo, engine := .idle, done := true })

/-! ## EXPAND -/

/-- EXPAND completes whenever its checks pass (R152): the table holds the products of each coefficient, and nothing
outside the table and the completion's status changes. -/
def Obligations.ExpandWritesTheTable : Prop :=
  ∀ s : State, ExpandRuns s → ∃ t, exec .expand s = .next t ∧ CompletedFrom s t ∧
    (∀ j < s.u32 1, ∀ i < s.u32 0, ∀ n < 16,
      t.readByte (s.addr 3 + 32 * (j * s.u32 0 + i) + n) =
          gmul (s.readByte (s.addr 2 + j * s.u32 0 + i)) (BitVec.ofNat 8 n) ∧
        t.readByte (s.addr 3 + 32 * (j * s.u32 0 + i) + 16 + n) =
          gmul (s.readByte (s.addr 2 + j * s.u32 0 + i)) (BitVec.ofNat 8 n <<< 4)) ∧
    ∀ a, ¬(Region.mk (s.addr 3) (32 * s.u32 0 * s.u32 1)).Has a → t.readByte a = s.readByte a

/-- EXPAND reports the first check of R152 that fails, in the order of R273. -/
def Obligations.ExpandReportsItsFirstFailingCheck : Prop :=
  ∀ s : State,
    let counts0 := 1 ≤ s.u32 0 ∧ s.u32 0 ≤ s.cfg.kMax
    let counts1 := 1 ≤ s.u32 1 ∧ s.u32 1 ≤ s.cfg.mMax
    let mat : Region := ⟨s.addr 2, s.u32 1 * s.u32 0⟩
    let tbl : Region := ⟨s.addr 3, 32 * s.u32 0 * s.u32 1⟩
    (¬counts0 → Reports .expand s 3 0x01 0) ∧
      (counts0 → ¬counts1 → Reports .expand s 3 0x01 1) ∧
      (counts0 → counts1 → ¬mat.Inside s.cfg → Reports .expand s 3 0x02 2) ∧
      (counts0 → counts1 → mat.Inside s.cfg → ¬tbl.Inside s.cfg → Reports .expand s 3 0x02 3) ∧
      (counts0 → counts1 → mat.Inside s.cfg → tbl.Inside s.cfg → ¬tbl.Apart mat → Reports .expand s 3 0x05 0)

/-- R154: two EXPAND commands over equal matrix bytes write equal table bytes, wherever the tables stand, whatever the
parameters. -/
def Obligations.TableDependsOnlyOnTheMatrix : Prop :=
  ∀ s s' t t' : State, ExpandRuns s → ExpandRuns s' → s.u32 0 = s'.u32 0 → s.u32 1 = s'.u32 1 →
    (∀ n < s.u32 1 * s.u32 0, s.readByte (s.addr 2 + n) = s'.readByte (s'.addr 2 + n)) →
    exec .expand s = .next t → exec .expand s' = .next t' →
    ∀ n < 32 * s.u32 0 * s.u32 1, t.readByte (s.addr 3 + n) = t'.readByte (s'.addr 3 + n)

/-! ## INVERT -/

/-- INVERT completes whenever its checks pass and elimination succeeds (R173): `out` holds the inverse elimination
found, and nothing outside `out` and the completion's status changes. -/
def Obligations.InvertWritesTheEliminationResult : Prop :=
  ∀ (s : State) (x : ByteMatrix), InvertRuns s →
    gjInvert (s.readMatrix (s.addr 1) (s.u32 0) (s.u32 0)) (s.u32 0) = .ok x →
    ∃ t, exec .invert s = .next t ∧ CompletedFrom s t ∧
      (∀ r < s.u32 0, ∀ c < s.u32 0, t.readByte (s.addr 2 + r * s.u32 0 + c) = entry x r c) ∧
      ∀ a, ¬(Region.mk (s.addr 2) (s.u32 0 * s.u32 0)).Has a → t.readByte a = s.readByte a

/-- INVERT reports the first check of R173 that fails, and SINGULAR with the failing column when all pass. -/
def Obligations.InvertReportsItsFirstFailingCheck : Prop :=
  ∀ s : State,
    let count := 1 ≤ s.u32 0 ∧ s.u32 0 ≤ s.cfg.kMax
    let input : Region := ⟨s.addr 1, s.u32 0 * s.u32 0⟩
    let output : Region := ⟨s.addr 2, s.u32 0 * s.u32 0⟩
    (¬count → Reports .invert s 3 0x01 0) ∧
      (count → ¬input.Inside s.cfg → Reports .invert s 3 0x02 1) ∧
      (count → input.Inside s.cfg → ¬output.Inside s.cfg → Reports .invert s 3 0x02 2) ∧
      (count → input.Inside s.cfg → output.Inside s.cfg → ¬output.Apart input → Reports .invert s 3 0x05 0) ∧
      ∀ c, InvertRuns s → gjInvert (s.readMatrix (s.addr 1) (s.u32 0) (s.u32 0)) (s.u32 0) = .error c →
        Reports .invert s 2 0x10 c

/-- R172: the result of elimination is the unique two-sided inverse. -/
def Obligations.EliminationFindsTheUniqueInverse : Prop :=
  ∀ (n : Nat) (f : Nat → Nat → Byte) (x : ByteMatrix), gjInvert (matrixOf n n f) n = .ok x →
    InverseOf n f (entry x) ∧ ∀ g, InverseOf n f g → ∀ r < n, ∀ c < n, g r c = entry x r c

/-- R171: elimination fails exactly on matrices without an inverse, at the first column that depends on those before
it; so a zero row is singular, and a zero column after independent ones fails there. -/
def Obligations.EliminationFailsAtTheFirstDependentColumn : Prop :=
  ∀ (n : Nat) (f : Nat → Nat → Byte),
    ((∃ c, gjInvert (matrixOf n n f) n = .error c) ↔ ¬∃ g, InverseOf n f g) ∧
      (∀ c, gjInvert (matrixOf n n f) n = .error c →
        c < n ∧ ColumnsDependent n f c ∧ ∀ c' < c, ¬ColumnsDependent n f c') ∧
      (∀ r < n, (∀ c < n, f r c = 0#8) → ∃ c, gjInvert (matrixOf n n f) n = .error c) ∧
      ∀ c < n, (∀ r < n, f r c = 0#8) → (∀ c' < c, ¬ColumnsDependent n f c') →
        gjInvert (matrixOf n n f) n = .error c

/-! ## DERIVE -/

/-- DERIVE completes whenever its checks pass and the selection is invertible (R194, R195, R196): `dec` and `idx` hold
the decode rows and the selected rows, and nothing else but the completion's status changes. -/
def Obligations.DeriveWritesTheDecodeMatrix : Prop :=
  ∀ (s : State) (binv : ByteMatrix), DeriveRuns s → gjInvert (selectionMatrix s) (s.u32 0) = .ok binv →
    ∃ t, exec .derive s = .next t ∧ CompletedFrom s t ∧
      (∀ p < s.u32 2, ∀ q < s.u32 0,
        t.readByte (s.addr 7 + p * s.u32 0 + q) =
          if p < s.u32 3 then entry binv (sparseAt s p) q
          else xorSum (s.u32 0) fun j =>
            gmul (s.readByte (s.addr 4 + sparseAt s p * s.u32 0 + j)) (entry binv j q)) ∧
      (∀ q < s.u32 0, t.readByte (s.addr 8 + q) = BitVec.ofNat 8 ((deriveDescriptor s).selection.getD q 0)) ∧
      ∀ a, (∀ o ∈ deriveOutputs s, ¬o.Has a) → t.readByte a = s.readByte a

/-- DERIVE reports the first check of R196 that fails, and SINGULAR with the failing column when all pass. -/
def Obligations.DeriveReportsItsFirstFailingCheck : Prop :=
  ∀ s : State,
    let counts0 := 1 ≤ s.u32 0 ∧ s.u32 0 ≤ s.cfg.kMax
    let counts1 := s.u32 0 ≤ s.u32 1 ∧ s.u32 1 ≤ s.cfg.mMax
    let counts2 := s.u32 2 ≤ s.u32 1 - s.u32 0
    let counts3 := s.u32 3 ≤ min (s.u32 2) (s.u32 0)
    let regions := deriveInputs s ++ deriveOutputs s
    (¬counts0 → Reports .derive s 3 0x01 0) ∧
      (counts0 → ¬counts1 → Reports .derive s 3 0x01 1) ∧
      (counts0 → counts1 → ¬counts2 → Reports .derive s 3 0x01 2) ∧
      (counts0 → counts1 → counts2 → ¬counts3 → Reports .derive s 3 0x01 3) ∧
      (∀ n r, DeriveCounts s → regions[n]? = some r → ¬r.Inside s.cfg →
        (∀ n' < n, ∀ q, regions[n']? = some q → q.Inside s.cfg) → Reports .derive s 3 0x02 (4 + n)) ∧
      (DeriveCounts s → (∀ r ∈ regions, r.Inside s.cfg) → ¬DeriveApart s → Reports .derive s 3 0x05 0) ∧
      (DeriveCounts s → (∀ r ∈ regions, r.Inside s.cfg) → DeriveApart s → ¬DescriptorConsistent s →
        Reports .derive s 3 0x06 0) ∧
      ∀ c, DeriveRuns s → gjInvert (selectionMatrix s) (s.u32 0) = .error c → Reports .derive s 2 0x10 c

/-- R191: the selection is the first `k` surviving rows, in order. -/
def Obligations.SelectionIsTheFirstSurvivingRows : Prop :=
  ∀ s : State, DeriveRuns s →
    let sel := (deriveDescriptor s).selection
    sel.length = s.u32 0 ∧ sel.Pairwise (· < ·) ∧
      (∀ r ∈ sel, r < s.u32 1 ∧ denseAt s r ≠ 1#8) ∧
      (∀ r < s.u32 1, denseAt s r ≠ 1#8 → r ∉ sel → ∀ q ∈ sel, q < r) ∧
      ∀ q < s.u32 0, ∀ t < s.u32 0,
        entry (selectionMatrix s) q t = s.readByte (s.addr 4 + sel.getD q 0 * s.u32 0 + t)

/-- R192: the decode index in memory is the selected rows, strictly ascending, each a surviving row. -/
def Obligations.DecodeIndexNamesSurvivingRowsInOrder : Prop :=
  ∀ s t : State, s.cfg.Legal → DeriveRuns s → exec .derive s = .next t → t.err = .ok →
    (∀ q < s.u32 0, (t.readByte (s.addr 8 + q)).toNat = (deriveDescriptor s).selection.getD q 0 ∧
        (t.readByte (s.addr 8 + q)).toNat < s.u32 1 ∧
        denseAt s (t.readByte (s.addr 8 + q)).toNat = 0#8) ∧
      ∀ q, q + 1 < s.u32 0 →
        (t.readByte (s.addr 8 + q)).toNat < (t.readByte (s.addr 8 + (q + 1))).toNat

/-- Reconstruction (R197), byte position by byte position: with identity rows on top of the encode matrix, applying
decode row `p` to the surviving blocks that the decode index names gives the missing block `S[p]`. -/
def Obligations.DecodeMatrixReconstructsTheMissingRows : Prop :=
  ∀ s t : State, s.cfg.Legal → DeriveRuns s → exec .derive s = .next t → t.err = .ok →
    (∀ r < s.u32 0, ∀ c < s.u32 0,
      s.readByte (s.addr 4 + r * s.u32 0 + c) = if r = c then 1#8 else 0#8) →
    ∀ x : Nat → Byte,
      let coded := fun r => xorSum (s.u32 0) fun j => gmul (s.readByte (s.addr 4 + r * s.u32 0 + j)) (x j)
      ∀ p < s.u32 2,
        xorSum (s.u32 0) (fun q =>
          gmul (t.readByte (s.addr 7 + p * s.u32 0 + q)) (coded (t.readByte (s.addr 8 + q)).toNat)) =
            coded (sparseAt s p)

/-! ## DOTP and ENCODE -/

/-- DOTP completes whenever its checks pass (R221): each position holds the XOR of the lookups, and nothing outside
`dest` and the completion's status changes. -/
def Obligations.DotpWritesTheDotProduct : Prop :=
  ∀ s : State, DotpRuns s → ∃ t, exec .dotp s = .next t ∧ CompletedFrom s t ∧
    (∀ pos < s.u32 0,
      t.readByte (s.addr 4 + pos) = xorSum (s.u32 1) fun i =>
        tmul (s.readBytes (s.addr 2 + 32 * i) 32) (s.readByte (s.pointer (s.addr 3) i + pos))) ∧
    ∀ a, ¬(Region.mk (s.addr 4) (s.u32 0)).Has a → t.readByte a = s.readByte a

/-- DOTP reports the first check of R221 that fails, in the order of R273. -/
def Obligations.DotpReportsItsFirstFailingCheck : Prop :=
  ∀ s : State,
    let counts1 := 1 ≤ s.u32 1 ∧ s.u32 1 ≤ s.cfg.kMax
    let tbl : Region := ⟨s.addr 2, 32 * s.u32 1⟩
    let srcv : Region := ⟨s.addr 3, 4 * s.u32 1⟩
    let dest : Region := ⟨s.addr 4, s.u32 0⟩
    let source := s.buffer (s.addr 3) (s.u32 0)
    (s.u32 0 = 0 → Reports .dotp s 3 0x01 0) ∧
      (1 ≤ s.u32 0 → ¬counts1 → Reports .dotp s 3 0x01 1) ∧
      (1 ≤ s.u32 0 → counts1 → ¬tbl.Inside s.cfg → Reports .dotp s 3 0x02 2) ∧
      (1 ≤ s.u32 0 → counts1 → tbl.Inside s.cfg → ¬srcv.Inside s.cfg → Reports .dotp s 3 0x02 3) ∧
      (1 ≤ s.u32 0 → counts1 → tbl.Inside s.cfg → srcv.Inside s.cfg → ¬dest.Inside s.cfg →
        Reports .dotp s 3 0x02 4) ∧
      (∀ i < s.u32 1, DotpDirect s → ¬(source i).Inside s.cfg → (∀ i' < i, (source i').Inside s.cfg) →
        Reports .dotp s 3 0x03 i) ∧
      (DotpDirect s → (∀ i < s.u32 1, (source i).Inside s.cfg) → ¬DotpApart s → Reports .dotp s 3 0x05 0)

/-- ENCODE completes whenever its checks pass (R220): each position of each output holds the XOR of the lookups, and
nothing outside the outputs and the completion's status changes. -/
def Obligations.EncodeWritesEveryOutput : Prop :=
  ∀ s : State, EncodeRuns s → ∃ t, exec .encode s = .next t ∧ CompletedFrom s t ∧
    (∀ j < s.u32 2, ∀ pos < s.u32 0,
      t.readByte ((encodeOutput s j).base + pos) = xorSum (s.u32 1) fun i =>
        tmul (s.readBytes (s.addr 3 + 32 * (j * s.u32 1 + i)) 32) (s.readByte ((encodeInput s i).base + pos))) ∧
    ∀ a, (∀ j < s.u32 2, ¬(encodeOutput s j).Has a) → t.readByte a = s.readByte a

/-- ENCODE reports the first check of R220 that fails, in the order of R273. -/
def Obligations.EncodeReportsItsFirstFailingCheck : Prop :=
  ∀ s : State,
    let counts1 := 1 ≤ s.u32 1 ∧ s.u32 1 ≤ s.cfg.kMax
    let counts2 := 1 ≤ s.u32 2 ∧ s.u32 2 ≤ s.cfg.mMax
    let tbl : Region := ⟨s.addr 3, 32 * s.u32 1 * s.u32 2⟩
    let srcv : Region := ⟨s.addr 4, 4 * s.u32 1⟩
    let destv : Region := ⟨s.addr 5, 4 * s.u32 2⟩
    let inputsInside := ∀ i < s.u32 1, (encodeInput s i).Inside s.cfg
    (s.u32 0 = 0 → Reports .encode s 3 0x01 0) ∧
      (1 ≤ s.u32 0 → ¬counts1 → Reports .encode s 3 0x01 1) ∧
      (1 ≤ s.u32 0 → counts1 → ¬counts2 → Reports .encode s 3 0x01 2) ∧
      (1 ≤ s.u32 0 → counts1 → counts2 → ¬tbl.Inside s.cfg → Reports .encode s 3 0x02 3) ∧
      (1 ≤ s.u32 0 → counts1 → counts2 → tbl.Inside s.cfg → ¬srcv.Inside s.cfg →
        Reports .encode s 3 0x02 4) ∧
      (1 ≤ s.u32 0 → counts1 → counts2 → tbl.Inside s.cfg → srcv.Inside s.cfg → ¬destv.Inside s.cfg →
        Reports .encode s 3 0x02 5) ∧
      (∀ i < s.u32 1, EncodeDirect s → ¬(encodeInput s i).Inside s.cfg →
        (∀ i' < i, (encodeInput s i').Inside s.cfg) → Reports .encode s 3 0x03 i) ∧
      (∀ j < s.u32 2, EncodeDirect s → inputsInside → ¬(encodeOutput s j).Inside s.cfg →
        (∀ j' < j, (encodeOutput s j').Inside s.cfg) → Reports .encode s 3 0x04 j) ∧
      (EncodeDirect s → inputsInside → (∀ j < s.u32 2, (encodeOutput s j).Inside s.cfg) → ¬EncodeApart s →
        Reports .encode s 3 0x05 0)

/-- R223: over a table that EXPAND wrote for the coefficients `c`, ENCODE computes the source's formula. -/
def Obligations.EncodeOverAnExpandedTableIsTheFieldDotProduct : Prop :=
  ∀ (s : State) (c : Nat → Nat → Byte), EncodeRuns s →
    (∀ j < s.u32 2, ∀ i < s.u32 1, ∀ n < 32,
      s.readByte (s.addr 3 + 32 * (j * s.u32 1 + i) + n) = (tableEntry (c j i)).getD n 0#8) →
    ∃ t, exec .encode s = .next t ∧ t.err = .ok ∧ ∀ j < s.u32 2, ∀ pos < s.u32 0,
      t.readByte ((encodeOutput s j).base + pos) =
        xorSum (s.u32 1) fun i => gmul (s.readByte ((encodeInput s i).base + pos)) (c j i)

/-- Lane independence (R222, first sentence): the byte at a position depends only on the table entries of its row and
on the input bytes at that position, so a split of the length, or another place of the buffers, changes nothing. -/
def Obligations.EncodeLanesAreIndependent : Prop :=
  ∀ s s' t t' : State, EncodeRuns s → EncodeRuns s' → s.u32 1 = s'.u32 1 →
    exec .encode s = .next t → exec .encode s' = .next t' →
    ∀ j < s.u32 2, ∀ j' < s'.u32 2, ∀ pos < s.u32 0, ∀ pos' < s'.u32 0,
      (∀ n < 32 * s.u32 1,
        s.readByte (s.addr 3 + 32 * (j * s.u32 1) + n) = s'.readByte (s'.addr 3 + 32 * (j' * s'.u32 1) + n)) →
      (∀ i < s.u32 1,
        s.readByte ((encodeInput s i).base + pos) = s'.readByte ((encodeInput s' i).base + pos')) →
      t.readByte ((encodeOutput s j).base + pos) = t'.readByte ((encodeOutput s' j').base + pos')

/-! ## Every command -/

/-- A command that completes with an error has written no byte of memory and not RESULT (R272, first clause). -/
def Obligations.FailedCommandLeavesMemoryAndResult : Prop :=
  ∀ (i : Instr) (s t : State), exec i s = .next t → t.err ≠ .ok → t.mem = s.mem ∧ t.result = s.result

/-- Every command completes in every state, and its completion changes nothing but the bytes its rule stores, RESULT,
ERR, ERR_INFO, DONE and the phase: no byte when the rule ends with an error, and else none that it does not store. A
scalar command changes no memory, a block command not RESULT (R271, R272, R39). -/
def Obligations.CompletionChangesNothingElse : Prop :=
  ∀ (i : Instr) (s : State), ∃ t, exec i s = .next t ∧
    t = { s with
      mem := t.mem, result := t.result, err := t.err, errInfo := t.errInfo, engine := .idle, done := true } ∧
    (∀ e, commandRule i s = .error e → t.mem = s.mem) ∧
    (∀ e, commandRule i s = .ok e → ∀ a, (∀ c ∈ e.stores, c.1 ≠ a) → t.readByte a = s.readByte a) ∧
    (i ∈ [Instr.gfMul, .gfDiv, .gfInv] → t.mem = s.mem) ∧
    (i ∉ [Instr.gfMul, .gfDiv, .gfInv] → t.result = s.result)

/-- Which errors which command reports, with the numbers of R270 as STATUS.ERR, ERR_INFO.CAUSE and ERR_INFO.INDEX read
them, the names the model has for them, and the INDEX where R270 fixes it. -/
def Obligations.CommandsReportOnlyTheirOwnErrors : Prop :=
  ∀ (i : Instr) (s t : State), exec i s = .next t →
    let err := ((t.readReg .status).extractLsb' 4 4).toNat
    let cause := ((t.readReg .errInfo).extractLsb' 0 8).toNat
    let index := ((t.readReg .errInfo).extractLsb' 8 16).toNat
    let named := fun e c => t.err = e ∧ t.errInfo.cause = c
    (t.readReg .errInfo).extractLsb' 24 8 = 0#8 ∧
      ((err = 0 ∧ cause = 0x00 ∧ index = 0 ∧ named .ok .none) ∨
        (err = 1 ∧ cause = 0x20 ∧ named .domain .zeroOperand ∧
          ((i = .gfInv ∧ index = 0) ∨ (i = .gfDiv ∧ index = 1))) ∨
        (err = 2 ∧ cause = 0x10 ∧ named .singular .singularPivot ∧ i ∈ [Instr.invert, .derive]) ∨
        (err = 3 ∧ cause = 0x01 ∧ named .precond .countRange ∧
          i ∈ [Instr.expand, .invert, .derive, .dotp, .encode]) ∨
        (err = 3 ∧ cause = 0x02 ∧ named .precond .addrRange ∧
          i ∈ [Instr.expand, .invert, .derive, .dotp, .encode]) ∨
        (err = 3 ∧ cause = 0x03 ∧ named .precond .srcPtrRange ∧ i ∈ [Instr.dotp, .encode]) ∨
        (err = 3 ∧ cause = 0x04 ∧ named .precond .destPtrRange ∧ i = .encode) ∨
        (err = 3 ∧ cause = 0x05 ∧ index = 0 ∧ named .precond .overlap ∧
          i ∈ [Instr.expand, .invert, .derive, .dotp, .encode]) ∨
        (err = 3 ∧ cause = 0x06 ∧ index = 0 ∧ named .precond .erasureInconsistent ∧ i = .derive))

/-- Every byte a command writes lies in the operand memory (R72). -/
def Obligations.EngineWritesStayInsideMemory : Prop :=
  ∀ (i : Instr) (s : State) (e : Effect), commandRule i s = .ok e → ∀ c ∈ e.stores, c.1 < s.cfg.memBytes

/-! ## Regions and pointer entries -/

/-- R15: in range, and overlap as sharing an address. -/
def Obligations.RegionsOverlapExactlyWhenTheyShareAnAddress : Prop :=
  ∀ (r q : Region) (cfg : Config),
    (r.overlaps q = true ↔ ∃ a, r.Has a ∧ q.Has a) ∧ (r.inRange cfg = true ↔ r.size = 0 ∨ r.base + r.size ≤ cfg.memBytes)

/-- A pointer entry is read little-endian (R76, R79). -/
def Obligations.PointerEntriesAreLittleEndian : Prop :=
  ∀ (s : State) (base n : Nat),
    s.pointer base n =
      (s.readByte (base + 4 * n)).toNat + 2 ^ 8 * (s.readByte (base + 4 * n + 1)).toNat +
        2 ^ 16 * (s.readByte (base + 4 * n + 2)).toNat + 2 ^ 24 * (s.readByte (base + 4 * n + 3)).toNat

/-! ## The register port -/

/-- R277: the whole effect of a CTRL write; a START while IDLE on a host bus that keeps program order (on one that
reorders, see StartOnAReorderingBusNeedsFinishedWrites). -/
def Obligations.CtrlWriteResetsOrStartsOrEnables : Prop :=
  ∀ (s : State) (r : Request) (rest : List Request) (v : Word), r.access = .regWrite 4 0x0C v →
    let s' : State := { s with inputs := rest }
    (v[1] = true → perform r rest s = .next s'.softReset) ∧
      (v[1] = false → v[0] = false → perform r rest s = .next { s' with irqEn := v[2] }) ∧
      (v[1] = false → v[0] = true → s.busy = true →
        perform r rest s = .next { s' with irqEn := v[2], overrun := true }) ∧
      (v[1] = false → v[0] = true → s.busy = false → s.cfg.hostBusOrdered = true →
        ∃ t wait, perform r rest s = .next t ∧
          t = { s' with
            irqEn := v[2], engine := .busy ⟨s.cmd, s.args⟩ wait, done := false, err := .ok,
            errInfo := noError, schedule := t.schedule, draws := t.draws })

/-- U20, R326 (c), in the model's reading (log entry 11): on a reordering bus a START while IDLE with an earlier memory
write of its agent in flight has no step, and without one it is accepted, with the whole effect R277 gives it. -/
def Obligations.StartOnAReorderingBusNeedsFinishedWrites : Prop :=
  ∀ (s : State) (r : Request) (rest : List Request) (v : Word), r.access = .regWrite 4 0x0C v →
    s.cfg.hostBusOrdered = false → s.busy = false → v[1] = false → v[0] = true →
    ((∃ q ∈ rest, q.agent = r.agent ∧ q.seq < r.seq ∧ ∃ a b, q.access = .memWrite a b) →
        perform r rest s = .refused (.memoryWriteInFlight r.agent)) ∧
      ((∀ q ∈ rest, q.agent = r.agent → q.seq < r.seq → ∀ a b, q.access ≠ .memWrite a b) →
        ∃ t, perform r rest s = .next t ∧
          t = { s with
            inputs := rest, irqEn := v[2], engine := .busy ⟨s.cmd, s.args⟩ s.nextDelay, done := false, err := .ok,
            errInfo := noError, schedule := t.schedule, draws := t.draws })

/-- R44: register accesses while BUSY. Writes to CMD and ARGi are lost, a soft reset is honoured, a START sets OVERRUN,
IRQ_EN and STATUS are written, and reads return the current values, ERR_INFO being 0 since the START. -/
def Obligations.RegisterAccessesWhileBusy : Prop :=
  ∀ (s : State) (r : Request) (rest : List Request) (off : Nat) (v : Word), s.busy = true →
    let s' : State := { s with inputs := rest }
    (r.access = .regWrite 4 off v →
      (off = 0x14 → perform r rest s = .next s') ∧
        (∀ i < 9, off = 0x20 + 4 * i → perform r rest s = .next s') ∧
        (off = 0x0C → v[1] = true → perform r rest s = .next s'.softReset) ∧
        (off = 0x0C → v[1] = false → v[0] = true →
          perform r rest s = .next { s' with irqEn := v[2], overrun := true }) ∧
        (off = 0x0C → v[1] = false → v[0] = false → perform r rest s = .next { s' with irqEn := v[2] }) ∧
        (off = 0x10 → perform r rest s = .next { s' with done := s.done && !v[1], overrun := s.overrun && !v[2] })) ∧
      (r.access = .regRead 4 off → off % 4 = 0 → off < 0x100 →
        perform r rest s = .next { s' with replies := ⟨r.agent, r.seq, .word (s.readReg (regAt off))⟩ :: s.replies }) ∧
      (s.LatchCoherent → s.readReg .errInfo = 0#32)

/-- What CTRL reads, in every state: IRQ_EN at bit 2, every other bit 0 (R36). While IDLE a CMD or ARGi write stores all
32 bits and they are read back; nothing else changes (R38, R41). -/
def Obligations.CommandRegistersStoreAndReadBack : Prop :=
  (∀ s : State, (s.readReg .ctrl)[2] = s.irqEn ∧ ∀ n < 32, n ≠ 2 → (s.readReg .ctrl).getLsbD n = false) ∧
    ∀ (s : State) (r : Request) (rest : List Request) (v : Word), s.busy = false →
      (r.access = .regWrite 4 0x14 v → ∃ t, perform r rest s = .next t ∧ t.readReg .cmd = v ∧
          t = { s with inputs := rest, cmd := t.cmd }) ∧
        ∀ i : Fin 9, r.access = .regWrite 4 (0x20 + 4 * i.val) v → ∃ t, perform r rest s = .next t ∧
          t.readReg (.arg i) = v ∧ (∀ j, j ≠ i → t.readReg (.arg j) = s.readReg (.arg j)) ∧
          t = { s with inputs := rest, args := t.args }

/-- What STATUS reads, in every state: BUSY as the phase, DONE, OVERRUN and the number of ERR, the rest 0 (R37, R45,
R270). A STATUS write clears DONE and OVERRUN where the value has a 1, and changes nothing else (R37). POLL replies with
the STATUS word (R107) and stays in the queue exactly while that word shows BUSY; one entry for all its reads is the
model's choice (log entry 18). -/
def Obligations.StatusWriteClearsOnlyDoneAndOverrun : Prop :=
  (∀ s : State,
    (((s.readReg .status)[0] = true ↔ ∃ l wait, s.engine = .busy l wait) ∧ (s.readReg .status)[1] = s.done ∧
      (s.readReg .status)[2] = s.overrun ∧ (s.readReg .status)[3] = false ∧
      (s.err, ((s.readReg .status).extractLsb' 4 4).toNat) ∈
        [(ErrCode.ok, 0), (.domain, 1), (.singular, 2), (.precond, 3), (.illegalCmd, 4)] ∧
      (s.readReg .status).extractLsb' 8 24 = 0#24)) ∧
    ∀ (s : State) (r : Request) (rest : List Request),
      (∀ v : Word, r.access = .regWrite 4 0x10 v →
        ∃ t, perform r rest s = .next t ∧
          t.readReg .status = s.readReg .status &&& ~~~(v &&& 0x00000006#32) ∧
          t = { s with inputs := rest, done := t.done, overrun := t.overrun }) ∧
        (r.access = .poll →
          ∃ t, perform r rest s = .next t ∧
            t = { s with
              inputs := if (s.readReg .status)[0] then s.inputs else rest
              replies := ⟨r.agent, r.seq, .word (s.readReg .status)⟩ :: s.replies })

/-- R43: a register access is a 32-bit access at a multiple of 4 below 0x100; another has no step, and a read has no
side effect. -/
def Obligations.RegisterAccessesAreAlignedWordsAndReadsAreSilent : Prop :=
  ∀ (s : State) (r : Request) (rest : List Request) (size off : Nat),
    (r.access = .regRead size off → size = 4 → off % 4 = 0 → off < 0x100 →
        ∃ t, perform r rest s = .next t ∧
          t = { s with inputs := rest, replies := ⟨r.agent, r.seq, .word (s.readReg (regAt off))⟩ :: s.replies }) ∧
      (∀ v, r.access = .regRead size off ∨ r.access = .regWrite size off v →
        ¬(size = 4 ∧ off % 4 = 0 ∧ off < 0x100) → ∀ t, perform r rest s ≠ .next t)

/-- What a read at each offset of the window replies with (R32): ID, PARAMS (R34, for legal parameters), MEMSIZE (R35),
CTRL, STATUS, CMD, RESULT (R39), ERR_INFO with its fields (R40, R270), ARG0..ARG8, and 0 at a reserved offset (R42).
Read-only and reserved registers ignore writes (R33, R34, R35, R39, R40, R42). -/
def Obligations.ReadOnlyAndReservedRegistersIgnoreWrites : Prop :=
  ∀ (s : State) (r : Request) (rest : List Request) (off : Nat),
    let info := s.readReg .errInfo
    let reserved := 0x44 ≤ off ∧ off ≤ 0xFC ∧ off % 4 = 0
    (∀ w : Word, r.access = .regRead 4 off →
      (off, w) ∈ [(0x00, 0x47463238#32), (0x04, s.readReg .params), (0x08, BitVec.ofNat 32 s.cfg.memBytes),
          (0x0C, s.readReg .ctrl), (0x10, s.readReg .status), (0x14, s.cmd), (0x18, s.result.setWidth 32),
          (0x1C, info)] ∨
        (∃ i : Fin 9, off = 0x20 + 4 * i.val ∧ w = s.args.get i) ∨ (reserved ∧ w = 0#32) →
      perform r rest s = .next { s with inputs := rest, replies := ⟨r.agent, r.seq, .word w⟩ :: s.replies }) ∧
    (s.cfg.Legal → (s.readReg .params).toNat = s.cfg.kMax + s.cfg.mMax * 2 ^ 16) ∧
    ((s.errInfo.cause, (info.extractLsb' 0 8).toNat) ∈
        [(Cause.none, 0x00), (.countRange, 0x01), (.addrRange, 0x02), (.srcPtrRange, 0x03), (.destPtrRange, 0x04),
          (.overlap, 0x05), (.erasureInconsistent, 0x06), (.singularPivot, 0x10), (.zeroOperand, 0x20),
          (.illegalCommand, 0x30)] ∧
      info.extractLsb' 8 16 = s.errInfo.index ∧ info.extractLsb' 24 8 = 0#8) ∧
    ∀ v : Word, r.access = .regWrite 4 off v → off ∈ [0x00, 0x04, 0x08, 0x18, 0x1C] ∨ reserved →
      perform r rest s = .next { s with inputs := rest }

/-- R47: the interrupt output is STATUS bit 1 and CTRL bit 2, as those registers read, and 0 after reset. -/
def Obligations.InterruptIsDoneAndEnable : Prop :=
  (∀ s : State, s.irq = ((s.readReg .status)[1] && (s.readReg .ctrl)[2])) ∧ State.reset.irq = false

/-! ## The memory port -/

/-- The memory port below MEM_BYTES: a write changes the addressed byte and no other, a read returns the byte and
changes nothing (R71, R82). -/
def Obligations.MemoryPortWritesOneByteAndReadsItBack : Prop :=
  ∀ (s : State) (r : Request) (rest : List Request) (a : Nat), a < s.cfg.memBytes →
    (∀ v, r.access = .memWrite a v → ∃ t, perform r rest s = .next t ∧
        t.readByte a = v ∧ (∀ b, b ≠ a → t.readByte b = s.readByte b) ∧
        t = { s with inputs := rest, mem := t.mem }) ∧
      (r.access = .memRead a → ∃ t, perform r rest s = .next t ∧
        t = { s with inputs := rest, replies := ⟨r.agent, r.seq, .byte (s.readByte a)⟩ :: s.replies })

/-- While BUSY a memory-port access has no step: it stays in the queue and the memory stands still until the phase is
IDLE, and register-port accesses are never held (R84). That an engine which only held accesses wait for completes in
the very next step is the model's choice (log entry 1), where R84 and R321 say only that it does in finite time; that
other accesses overtake a held one is the model's too (log entry 3). -/
def Obligations.MemoryAccessesAreHeldWhileBusy : Prop :=
  ∀ (s t : State) (l : Latched) (wait : Nat), s.engine = .busy l wait → step s = .next t →
    (∀ r ∈ s.inputs, r.access.held = true → r ∈ t.inputs) ∧ (t.busy = true → t.mem = s.mem) ∧
      ((∀ r ∈ s.inputs, r.access.held = true) → t.busy = false) ∧
      ∀ size off v a b, (Access.regRead size off).held = false ∧ (Access.regWrite size off v).held = false ∧
        (Access.memRead a).held = true ∧ (Access.memWrite a b).held = true

/-! ## Reset -/

/-- R312: every register after a hard reset, after a soft reset and at power-on, the phase and the interrupt output; a
soft reset of an idle engine leaves the operand memory. -/
def Obligations.ResetLeavesTheListedValues : Prop :=
  (∀ s t : State, (t = s.hardReset ∨ t = s.softReset ∨ (s = State.reset ∧ t = s)) →
      t.readReg .id = 0x47463238#32 ∧ t.readReg .params = s.readReg .params ∧
        t.readReg .memsize = s.readReg .memsize ∧ t.readReg .ctrl = 0#32 ∧ t.readReg .status = 0#32 ∧
        t.readReg .cmd = 0#32 ∧ t.readReg .result = 0#32 ∧ t.readReg .errInfo = 0#32 ∧
        (∀ i, t.readReg (.arg i) = 0#32) ∧ t.readReg .reserved = 0#32 ∧ t.engine = .idle ∧ t.irq = false) ∧
    (∀ s : State, s.cfg.Legal →
      (s.readReg .params).toNat = s.cfg.kMax + s.cfg.mMax * 2 ^ 16 ∧
        (s.readReg .memsize).toNat = s.cfg.memBytes % 2 ^ 32) ∧
    ∀ s : State, s.engine = .idle → ∀ a, s.softReset.readByte a = s.readByte a

/-- The reset input is the hard reset (R310), never held, in any phase; it is an access like another by the model's choice
(log entry 15). Also the model's choice (log entries 4, 14): after a hard reset every byte of operand memory is the free
value of that reset, and the state at power-on is what a hard reset leaves, counted as reset number 0. -/
def Obligations.HardResetDrawsTheMemoryAnew : Prop :=
  (∀ (s : State) (r : Request) (rest : List Request), r.access = .hardReset →
      r.access.held = false ∧ perform r rest s = .next ({ s with inputs := rest } : State).hardReset) ∧
    (∀ (s : State) (a : Nat), s.hardReset.mem = [] ∧
      s.hardReset.readByte a = Config.powerOnByte (s.powerOns + 1) a) ∧
    State.reset = { State.reset.hardReset with powerOns := 0 }

/-- A soft reset while BUSY aborts the command (R314): no completion, RESULT 0, no byte outside its output regions
changes, and none at all when it would have failed. Both are judged on the state at the reset (log entry 5). -/
def Obligations.SoftResetWhileBusyAbortsTheCommand : Prop :=
  ∀ (s : State) (l : Latched) (wait : Nat), s.engine = .busy l wait →
    s.softReset.engine = .idle ∧ s.softReset.done = false ∧ s.softReset.readReg .status = 0#32 ∧
      s.softReset.readReg .result = 0#32 ∧
      (∀ e, wordRule l.cmd s = .ok e → ∀ a, (∀ c ∈ e.stores, c.1 ≠ a) →
        s.softReset.readByte a = s.readByte a) ∧
      ∀ e, wordRule l.cmd s = .error e → ∀ a, s.softReset.readByte a = s.readByte a

/-! ## The whole machine -/

/-- Every step keeps the invariant: legal parameters, canonical memory inside MEM_BYTES, a latch that agrees with CMD
and the ARGs, and an ERR_INFO that agrees with ERR (R9, R40, R45, R70, R270). -/
def Obligations.EveryStepKeepsTheMachineInvariant : Prop :=
  ∀ s t : State, s.Inv → step s = .next t → t.Inv

/-- The invariant holds at reset. -/
def Obligations.ResetMeetsTheMachineInvariant : Prop := State.reset.Inv

/-- ID, PARAMS and MEMSIZE are constants of the configuration (R49): no step changes the parameters. -/
def Obligations.NoStepChangesTheParameters : Prop :=
  ∀ s t : State, step s = .next t → t.cfg = s.cfg ∧ t.readReg .id = s.readReg .id ∧
    t.readReg .params = s.readReg .params ∧ t.readReg .memsize = s.readReg .memsize

/-- RESULT changes only by a scalar command that completes with ERR = OK, or by a reset (R39, R312): the reset input, or
a CTRL write with SRESET, from the queue, and the step is then that reset. -/
def Obligations.ResultChangesOnlyByScalarSuccessOrReset : Prop :=
  ∀ s t : State, step s = .next t →
    let s' : State := { s with inputs := t.inputs }
    t.result = s.result ∨
      (∃ r ∈ s.inputs, (r.access = .hardReset ∧ t = s'.hardReset) ∨
        ∃ v : Word, r.access = .regWrite 4 0x0C v ∧ v[1] = true ∧ t = s'.softReset) ∨
      ∃ l wait i, s.engine = .busy l wait ∧ decode l.cmd = .ok i ∧ i ∈ [Instr.gfMul, .gfDiv, .gfInv] ∧
        step s = exec i s ∧ t.err = .ok ∧ t.done = true

/-- A busy engine reaches IDLE after finitely many steps, whatever a dutiful host does meanwhile (R321; the bound is the
model's delay, log entry 1). -/
def Obligations.BusyEngineReachesIdle : Prop :=
  ∀ (s : State) (l : Latched) (wait : Nat), s.engine = .busy l wait → s.Dutiful →
    ∃ n t, n ≤ wait + 1 ∧ Host.Core.run core n s = .next t ∧ t.busy = false

/-- A host that keeps its duties on a bus that keeps program order never stops the machine, and what is left of its
accesses still keeps them (R326). -/
def Obligations.DutifulHostNeverStopsTheMachine : Prop :=
  ∀ s : State, s.Dutiful → s.cfg.hostBusOrdered = true → ∃ t, step s = .next t ∧ t.Dutiful

/-- An access the host must not issue stops the machine, by name (R326 (a), (b)); the names are the model's (log
entry 10). -/
def Obligations.UndutifulAccessStopsTheMachine : Prop :=
  ∀ (s : State) (r : Request) (rest : List Request), s.engine = .idle → s.inputs = r :: rest →
    (∀ a, s.cfg.memBytes ≤ a → (r.access = .memRead a ∨ ∃ v, r.access = .memWrite a v) →
        step s = .fault (.memoryAddressOutside a)) ∧
      (∀ size off, size ≠ 4 → (r.access = .regRead size off ∨ ∃ v, r.access = .regWrite size off v) →
        step s = .refused (.registerAccessNotWord size)) ∧
      (∀ off, off % 4 ≠ 0 → (r.access = .regRead 4 off ∨ ∃ v, r.access = .regWrite 4 off v) →
        step s = .refused (.registerOffsetMisaligned off)) ∧
      (∀ off, off % 4 = 0 → 0x100 ≤ off → (r.access = .regRead 4 off ∨ ∃ v, r.access = .regWrite 4 off v) →
        step s = .fault (.registerOffsetOutside off))
end

