-- ==== Sys2Proof/Laws/Memory.lean ====
section
/-! SUPPORT. The laws of the operand memory: a read after a write, and the canonical form. -/

namespace Sys2Proof.Machine

theorem lookup_write (m : Memory) (a b : Nat) (v : Byte) :
    Memory.lookup (Memory.write m a v) b = if a = b then some v else Memory.lookup m b := by
  induction m with
  | nil => simp [Memory.write, Memory.lookup]
  | cons c rest ih =>
    obtain ⟨x, w⟩ := c
    by_cases hlt : a < x
    · simp [Memory.write, Memory.lookup, hlt]
    · by_cases heq : a = x
      · subst heq
        by_cases hb : a = b <;> simp [Memory.write, Memory.lookup, hb]
      · by_cases hx : x = b
        · subst hx
          simp [Memory.write, Memory.lookup, hlt, heq]
        · simp [Memory.write, Memory.lookup, hlt, heq, hx, ih]

/-- A read after a write to the same address gives the value written (R82). -/
@[simp] theorem lookup_write_same (m : Memory) (a : Nat) (v : Byte) :
    Memory.lookup (Memory.write m a v) a = some v := by simp [lookup_write]

/-- A write leaves every other address alone (R82). -/
theorem lookup_write_other (m : Memory) (a b : Nat) (v : Byte) (h : a ≠ b) :
    Memory.lookup (Memory.write m a v) b = Memory.lookup m b := by simp [lookup_write, h]

theorem mem_write {m : Memory} {a : Nat} {v : Byte} {c : Host.Cell} (h : c ∈ Memory.write m a v) :
    c = (a, v) ∨ c ∈ m := by
  induction m with
  | nil => simpa [Memory.write] using h
  | cons d rest ih =>
    obtain ⟨x, w⟩ := d
    by_cases hlt : a < x
    · simpa [Memory.write, hlt] using h
    · by_cases heq : a = x
      · subst heq
        simp only [Memory.write, Nat.lt_irrefl, if_false, if_true, List.mem_cons] at h
        exact h.imp id (List.mem_cons_of_mem _)
      · simp only [Memory.write, hlt, if_false, heq, List.mem_cons] at h
        rcases h with h | h
        · exact .inr (h ▸ List.mem_cons_self)
        · exact (ih h).imp id (List.mem_cons_of_mem _)

/-- A write keeps the canonical form. -/
theorem write_wf {m : Memory} (a : Nat) (v : Byte) (h : Memory.wf m) : Memory.wf (Memory.write m a v) := by
  induction m with
  | nil => simp [Memory.wf, Memory.write]
  | cons d rest ih =>
    obtain ⟨x, w⟩ := d
    obtain ⟨hx, hrest⟩ := List.pairwise_cons.1 h
    by_cases hlt : a < x
    · simp only [Memory.write, hlt, if_true]
      refine List.pairwise_cons.2 ⟨fun c hc => ?_, h⟩
      rcases List.mem_cons.1 hc with rfl | hc
      · exact hlt
      · exact hlt.trans (hx c hc)
    · by_cases heq : a = x
      · subst heq
        simp only [Memory.write, Nat.lt_irrefl, if_false, if_true]
        exact List.pairwise_cons.2 ⟨hx, hrest⟩
      · simp only [Memory.write, hlt, if_false, heq]
        refine List.pairwise_cons.2 ⟨fun c hc => ?_, ih hrest⟩
        rcases mem_write hc with rfl | hc
        · simp only; omega
        · exact hx c hc

/-- Writing a list of bytes keeps the canonical form. -/
theorem writeAll_wf (stores : List Host.Cell) {m : Memory} (h : Memory.wf m) :
    Memory.wf (Memory.writeAll m stores) := by
  induction stores generalizing m with
  | nil => exact h
  | cons c rest ih => exact ih (write_wf c.1 c.2 h)

/-- An address no store names keeps its byte. -/
theorem lookup_writeAll_other (stores : List Host.Cell) (m : Memory) (a : Nat) (h : ∀ c ∈ stores, c.1 ≠ a) :
    Memory.lookup (Memory.writeAll m stores) a = Memory.lookup m a := by
  induction stores generalizing m with
  | nil => rfl
  | cons c rest ih =>
    have hrest := ih (Memory.write m c.1 c.2) fun d hd => h d (List.mem_cons_of_mem _ hd)
    exact hrest.trans (lookup_write_other m c.1 a c.2 (h c List.mem_cons_self))

/-- When no two stores name the same address, each stored byte is read back. -/
theorem lookup_writeAll_mem (stores : List Host.Cell) (m : Memory) (c : Host.Cell) (hc : c ∈ stores)
    (distinct : stores.Pairwise fun x y => x.1 ≠ y.1) :
    Memory.lookup (Memory.writeAll m stores) c.1 = some c.2 := by
  induction stores generalizing m with
  | nil => simp at hc
  | cons d rest ih =>
    obtain ⟨hd, hrest⟩ := List.pairwise_cons.1 distinct
    rcases List.mem_cons.1 hc with rfl | hc
    · have h := lookup_writeAll_other rest (Memory.write m c.1 c.2) c.1 fun e he => (hd e he).symm
      exact h.trans (lookup_write_same m c.1 c.2)
    · exact ih (Memory.write m d.1 d.2) hc hrest

/-- Every cell of a written memory was there before or is one of the stores. -/
theorem mem_writeAll (stores : List Host.Cell) {m : Memory} {c : Host.Cell}
    (h : c ∈ Memory.writeAll m stores) : c ∈ stores ∨ c ∈ m := by
  induction stores generalizing m with
  | nil => exact .inr h
  | cons d rest ih =>
    rcases ih h with h | h
    · exact .inl (List.mem_cons_of_mem _ h)
    · rcases mem_write h with rfl | h
      · exact .inl List.mem_cons_self
      · exact .inr h

theorem reset_memory_wf : Memory.wf State.reset.mem := List.Pairwise.nil

/-- The cells of consecutive bytes: byte `t` stands at `a + t`. -/
theorem mem_cellsAt {a : Nat} {bytes : List Byte} {c : Host.Cell} :
    c ∈ cellsAt a bytes ↔ ∃ t, ∃ h : t < bytes.length, c = (a + t, bytes[t]) := by
  induction bytes generalizing a with
  | nil => simp [cellsAt]
  | cons v rest ih =>
    simp only [cellsAt, List.mem_cons, ih, List.length_cons]
    constructor
    · rintro (rfl | ⟨t, ht, rfl⟩)
      · exact ⟨0, by omega, by simp⟩
      · exact ⟨t + 1, by omega, by simp [Nat.add_assoc, Nat.add_comm 1 t]⟩
    · rintro ⟨t, ht, rfl⟩
      cases t with
      | zero => exact .inl (by simp)
      | succ t => exact .inr ⟨t, by omega, by simp [Nat.add_assoc, Nat.add_comm 1 t]⟩

/-- The cells of consecutive bytes name no address twice. -/
theorem cellsAt_distinct (a : Nat) (bytes : List Byte) :
    (cellsAt a bytes).Pairwise fun x y => x.1 ≠ y.1 := by
  induction bytes generalizing a with
  | nil => exact List.Pairwise.nil
  | cons v rest ih =>
    refine List.pairwise_cons.2 ⟨fun c hc => ?_, ih (a + 1)⟩
    obtain ⟨t, _, rfl⟩ := mem_cellsAt.1 hc
    simp only; omega

/-- A byte read depends on the memory and on which power-on the machine is after. -/
theorem readByte_congr {s t : State} (hm : s.mem = t.mem) (hp : s.powerOns = t.powerOns) (a : Nat) :
    s.readByte a = t.readByte a := by simp [State.readByte, hm, hp]

/-- After a successful completion, an address no store names reads as before. -/
theorem readByte_completeOk_other (s : State) (e : Effect) (a : Nat) (h : ∀ c ∈ e.stores, c.1 ≠ a) :
    (s.completeOk e).readByte a = s.readByte a := by
  simp [State.readByte, State.completeOk, lookup_writeAll_other _ _ _ h]

/-- After a successful completion, a stored byte reads as stored, when no address is stored to twice. -/
theorem readByte_completeOk_stored (s : State) (e : Effect) (c : Host.Cell) (hc : c ∈ e.stores)
    (distinct : e.stores.Pairwise fun x y => x.1 ≠ y.1) : (s.completeOk e).readByte c.1 = c.2 := by
  simp [State.readByte, State.completeOk, lookup_writeAll_mem _ _ c hc distinct]

/-- A memory-port write is read back (R71, R82). -/
theorem readByte_hostWrite (s : State) (a b : Nat) (v : Byte) :
    (s.hostWrite a v).readByte b = if a = b then v else s.readByte b := by
  by_cases h : a = b <;> simp [State.readByte, State.hostWrite, lookup_write, h]

end Sys2Proof.Machine
end

