-- ==== Sys2Proof/Laws/State.lean ====
section
/-! SUPPORT. One lemma per field of State and per named update: what the update leaves in the field. -/

namespace Sys2Proof.Machine

variable (s : State)

@[simp] theorem raise_cfg (e : CmdError) : (s.raise e).cfg = s.cfg := rfl
@[simp] theorem raise_irqEn (e : CmdError) : (s.raise e).irqEn = s.irqEn := rfl
@[simp] theorem raise_done (e : CmdError) : (s.raise e).done = true := rfl
@[simp] theorem raise_overrun (e : CmdError) : (s.raise e).overrun = s.overrun := rfl
@[simp] theorem raise_err (e : CmdError) : (s.raise e).err = e.cause.err := rfl
@[simp] theorem raise_cmd (e : CmdError) : (s.raise e).cmd = s.cmd := rfl
@[simp] theorem raise_result (e : CmdError) : (s.raise e).result = s.result := rfl
@[simp] theorem raise_errInfo (e : CmdError) : (s.raise e).errInfo = ⟨e.cause, BitVec.ofNat 16 e.index⟩ := rfl
@[simp] theorem raise_args (e : CmdError) : (s.raise e).args = s.args := rfl
@[simp] theorem raise_engine (e : CmdError) : (s.raise e).engine = .idle := rfl
@[simp] theorem raise_mem (e : CmdError) : (s.raise e).mem = s.mem := rfl
@[simp] theorem raise_inputs (e : CmdError) : (s.raise e).inputs = s.inputs := rfl
@[simp] theorem raise_replies (e : CmdError) : (s.raise e).replies = s.replies := rfl
@[simp] theorem raise_schedule (e : CmdError) : (s.raise e).schedule = s.schedule := rfl
@[simp] theorem raise_draws (e : CmdError) : (s.raise e).draws = s.draws := rfl
@[simp] theorem raise_powerOns (e : CmdError) : (s.raise e).powerOns = s.powerOns := rfl

@[simp] theorem completeOk_cfg (e : Effect) : (s.completeOk e).cfg = s.cfg := rfl
@[simp] theorem completeOk_irqEn (e : Effect) : (s.completeOk e).irqEn = s.irqEn := rfl
@[simp] theorem completeOk_done (e : Effect) : (s.completeOk e).done = true := rfl
@[simp] theorem completeOk_overrun (e : Effect) : (s.completeOk e).overrun = s.overrun := rfl
@[simp] theorem completeOk_err (e : Effect) : (s.completeOk e).err = .ok := rfl
@[simp] theorem completeOk_cmd (e : Effect) : (s.completeOk e).cmd = s.cmd := rfl
@[simp] theorem completeOk_result (e : Effect) : (s.completeOk e).result = e.result.getD s.result := rfl
@[simp] theorem completeOk_errInfo (e : Effect) : (s.completeOk e).errInfo = noError := rfl
@[simp] theorem completeOk_args (e : Effect) : (s.completeOk e).args = s.args := rfl
@[simp] theorem completeOk_engine (e : Effect) : (s.completeOk e).engine = .idle := rfl
@[simp] theorem completeOk_mem (e : Effect) : (s.completeOk e).mem = Memory.writeAll s.mem e.stores := rfl
@[simp] theorem completeOk_inputs (e : Effect) : (s.completeOk e).inputs = s.inputs := rfl
@[simp] theorem completeOk_replies (e : Effect) : (s.completeOk e).replies = s.replies := rfl
@[simp] theorem completeOk_schedule (e : Effect) : (s.completeOk e).schedule = s.schedule := rfl
@[simp] theorem completeOk_draws (e : Effect) : (s.completeOk e).draws = s.draws := rfl
@[simp] theorem completeOk_powerOns (e : Effect) : (s.completeOk e).powerOns = s.powerOns := rfl

@[simp] theorem writeStatus_cfg (v : Word) : (s.writeStatus v).cfg = s.cfg := rfl
@[simp] theorem writeStatus_irqEn (v : Word) : (s.writeStatus v).irqEn = s.irqEn := rfl
@[simp] theorem writeStatus_done (v : Word) : (s.writeStatus v).done = (s.done && !v[1]) := rfl
@[simp] theorem writeStatus_overrun (v : Word) : (s.writeStatus v).overrun = (s.overrun && !v[2]) := rfl
@[simp] theorem writeStatus_err (v : Word) : (s.writeStatus v).err = s.err := rfl
@[simp] theorem writeStatus_cmd (v : Word) : (s.writeStatus v).cmd = s.cmd := rfl
@[simp] theorem writeStatus_result (v : Word) : (s.writeStatus v).result = s.result := rfl
@[simp] theorem writeStatus_errInfo (v : Word) : (s.writeStatus v).errInfo = s.errInfo := rfl
@[simp] theorem writeStatus_args (v : Word) : (s.writeStatus v).args = s.args := rfl
@[simp] theorem writeStatus_engine (v : Word) : (s.writeStatus v).engine = s.engine := rfl
@[simp] theorem writeStatus_mem (v : Word) : (s.writeStatus v).mem = s.mem := rfl
@[simp] theorem writeStatus_inputs (v : Word) : (s.writeStatus v).inputs = s.inputs := rfl
@[simp] theorem writeStatus_replies (v : Word) : (s.writeStatus v).replies = s.replies := rfl
@[simp] theorem writeStatus_schedule (v : Word) : (s.writeStatus v).schedule = s.schedule := rfl
@[simp] theorem writeStatus_draws (v : Word) : (s.writeStatus v).draws = s.draws := rfl
@[simp] theorem writeStatus_powerOns (v : Word) : (s.writeStatus v).powerOns = s.powerOns := rfl

@[simp] theorem acceptStart_cfg (wait : Nat) : (s.acceptStart wait).cfg = s.cfg := rfl
@[simp] theorem acceptStart_irqEn (wait : Nat) : (s.acceptStart wait).irqEn = s.irqEn := rfl
@[simp] theorem acceptStart_done (wait : Nat) : (s.acceptStart wait).done = false := rfl
@[simp] theorem acceptStart_overrun (wait : Nat) : (s.acceptStart wait).overrun = s.overrun := rfl
@[simp] theorem acceptStart_err (wait : Nat) : (s.acceptStart wait).err = .ok := rfl
@[simp] theorem acceptStart_cmd (wait : Nat) : (s.acceptStart wait).cmd = s.cmd := rfl
@[simp] theorem acceptStart_result (wait : Nat) : (s.acceptStart wait).result = s.result := rfl
@[simp] theorem acceptStart_errInfo (wait : Nat) : (s.acceptStart wait).errInfo = noError := rfl
@[simp] theorem acceptStart_args (wait : Nat) : (s.acceptStart wait).args = s.args := rfl
@[simp] theorem acceptStart_engine (wait : Nat) : (s.acceptStart wait).engine = .busy ⟨s.cmd, s.args⟩ wait := rfl
@[simp] theorem acceptStart_mem (wait : Nat) : (s.acceptStart wait).mem = s.mem := rfl
@[simp] theorem acceptStart_inputs (wait : Nat) : (s.acceptStart wait).inputs = s.inputs := rfl
@[simp] theorem acceptStart_replies (wait : Nat) : (s.acceptStart wait).replies = s.replies := rfl
@[simp] theorem acceptStart_schedule (wait : Nat) : (s.acceptStart wait).schedule = s.schedule := rfl
@[simp] theorem acceptStart_draws (wait : Nat) : (s.acceptStart wait).draws = s.draws := rfl
@[simp] theorem acceptStart_powerOns (wait : Nat) : (s.acceptStart wait).powerOns = s.powerOns := rfl

@[simp] theorem drawDelay_cfg : s.drawDelay.cfg = s.cfg := rfl
@[simp] theorem drawDelay_irqEn : s.drawDelay.irqEn = s.irqEn := rfl
@[simp] theorem drawDelay_done : s.drawDelay.done = s.done := rfl
@[simp] theorem drawDelay_overrun : s.drawDelay.overrun = s.overrun := rfl
@[simp] theorem drawDelay_err : s.drawDelay.err = s.err := rfl
@[simp] theorem drawDelay_cmd : s.drawDelay.cmd = s.cmd := rfl
@[simp] theorem drawDelay_result : s.drawDelay.result = s.result := rfl
@[simp] theorem drawDelay_errInfo : s.drawDelay.errInfo = s.errInfo := rfl
@[simp] theorem drawDelay_args : s.drawDelay.args = s.args := rfl
@[simp] theorem drawDelay_engine : s.drawDelay.engine = s.engine := rfl
@[simp] theorem drawDelay_mem : s.drawDelay.mem = s.mem := rfl
@[simp] theorem drawDelay_inputs : s.drawDelay.inputs = s.inputs := rfl
@[simp] theorem drawDelay_replies : s.drawDelay.replies = s.replies := rfl
@[simp] theorem drawDelay_schedule : s.drawDelay.schedule = s.schedule.tail := rfl
@[simp] theorem drawDelay_draws : s.drawDelay.draws = s.draws + 1 := rfl
@[simp] theorem drawDelay_powerOns : s.drawDelay.powerOns = s.powerOns := rfl

@[simp] theorem resetRegisters_cfg : s.resetRegisters.cfg = s.cfg := rfl
@[simp] theorem resetRegisters_irqEn : s.resetRegisters.irqEn = false := rfl
@[simp] theorem resetRegisters_done : s.resetRegisters.done = false := rfl
@[simp] theorem resetRegisters_overrun : s.resetRegisters.overrun = false := rfl
@[simp] theorem resetRegisters_err : s.resetRegisters.err = .ok := rfl
@[simp] theorem resetRegisters_cmd : s.resetRegisters.cmd = 0#32 := rfl
@[simp] theorem resetRegisters_result : s.resetRegisters.result = 0#8 := rfl
@[simp] theorem resetRegisters_errInfo : s.resetRegisters.errInfo = noError := rfl
@[simp] theorem resetRegisters_args : s.resetRegisters.args = Vector.replicate 9 0#32 := rfl
@[simp] theorem resetRegisters_engine : s.resetRegisters.engine = .idle := rfl
@[simp] theorem resetRegisters_mem : s.resetRegisters.mem = s.mem := rfl
@[simp] theorem resetRegisters_inputs : s.resetRegisters.inputs = s.inputs := rfl
@[simp] theorem resetRegisters_replies : s.resetRegisters.replies = s.replies := rfl
@[simp] theorem resetRegisters_schedule : s.resetRegisters.schedule = s.schedule := rfl
@[simp] theorem resetRegisters_draws : s.resetRegisters.draws = s.draws := rfl
@[simp] theorem resetRegisters_powerOns : s.resetRegisters.powerOns = s.powerOns := rfl

@[simp] theorem hardReset_cfg : s.hardReset.cfg = s.cfg := rfl
@[simp] theorem hardReset_irqEn : s.hardReset.irqEn = false := rfl
@[simp] theorem hardReset_done : s.hardReset.done = false := rfl
@[simp] theorem hardReset_overrun : s.hardReset.overrun = false := rfl
@[simp] theorem hardReset_err : s.hardReset.err = .ok := rfl
@[simp] theorem hardReset_cmd : s.hardReset.cmd = 0#32 := rfl
@[simp] theorem hardReset_result : s.hardReset.result = 0#8 := rfl
@[simp] theorem hardReset_errInfo : s.hardReset.errInfo = noError := rfl
@[simp] theorem hardReset_args : s.hardReset.args = Vector.replicate 9 0#32 := rfl
@[simp] theorem hardReset_engine : s.hardReset.engine = .idle := rfl
@[simp] theorem hardReset_mem : s.hardReset.mem = [] := rfl
@[simp] theorem hardReset_inputs : s.hardReset.inputs = s.inputs := rfl
@[simp] theorem hardReset_replies : s.hardReset.replies = s.replies := rfl
@[simp] theorem hardReset_schedule : s.hardReset.schedule = s.schedule := rfl
@[simp] theorem hardReset_draws : s.hardReset.draws = s.draws := rfl
@[simp] theorem hardReset_powerOns : s.hardReset.powerOns = s.powerOns + 1 := rfl

@[simp] theorem abort_cfg (o : Except CmdError Effect) : (s.abort o).cfg = s.cfg := rfl
@[simp] theorem abort_irqEn (o : Except CmdError Effect) : (s.abort o).irqEn = s.irqEn := rfl
@[simp] theorem abort_done (o : Except CmdError Effect) : (s.abort o).done = s.done := rfl
@[simp] theorem abort_overrun (o : Except CmdError Effect) : (s.abort o).overrun = s.overrun := rfl
@[simp] theorem abort_err (o : Except CmdError Effect) : (s.abort o).err = s.err := rfl
@[simp] theorem abort_cmd (o : Except CmdError Effect) : (s.abort o).cmd = s.cmd := rfl
@[simp] theorem abort_result (o : Except CmdError Effect) : (s.abort o).result = s.result := rfl
@[simp] theorem abort_errInfo (o : Except CmdError Effect) : (s.abort o).errInfo = s.errInfo := rfl
@[simp] theorem abort_args (o : Except CmdError Effect) : (s.abort o).args = s.args := rfl
@[simp] theorem abort_engine (o : Except CmdError Effect) : (s.abort o).engine = s.engine := rfl
@[simp] theorem abort_mem (o : Except CmdError Effect) : (s.abort o).mem = Memory.writeAll s.mem (s.abortCells o) := rfl
@[simp] theorem abort_inputs (o : Except CmdError Effect) : (s.abort o).inputs = s.inputs := rfl
@[simp] theorem abort_replies (o : Except CmdError Effect) : (s.abort o).replies = s.replies := rfl
@[simp] theorem abort_schedule (o : Except CmdError Effect) : (s.abort o).schedule = s.schedule := rfl
@[simp] theorem abort_draws (o : Except CmdError Effect) : (s.abort o).draws = s.draws + 1 := rfl
@[simp] theorem abort_powerOns (o : Except CmdError Effect) : (s.abort o).powerOns = s.powerOns := rfl

@[simp] theorem reply_cfg (r : Request) (v : Value) : (s.reply r v).cfg = s.cfg := rfl
@[simp] theorem reply_irqEn (r : Request) (v : Value) : (s.reply r v).irqEn = s.irqEn := rfl
@[simp] theorem reply_done (r : Request) (v : Value) : (s.reply r v).done = s.done := rfl
@[simp] theorem reply_overrun (r : Request) (v : Value) : (s.reply r v).overrun = s.overrun := rfl
@[simp] theorem reply_err (r : Request) (v : Value) : (s.reply r v).err = s.err := rfl
@[simp] theorem reply_cmd (r : Request) (v : Value) : (s.reply r v).cmd = s.cmd := rfl
@[simp] theorem reply_result (r : Request) (v : Value) : (s.reply r v).result = s.result := rfl
@[simp] theorem reply_errInfo (r : Request) (v : Value) : (s.reply r v).errInfo = s.errInfo := rfl
@[simp] theorem reply_args (r : Request) (v : Value) : (s.reply r v).args = s.args := rfl
@[simp] theorem reply_engine (r : Request) (v : Value) : (s.reply r v).engine = s.engine := rfl
@[simp] theorem reply_mem (r : Request) (v : Value) : (s.reply r v).mem = s.mem := rfl
@[simp] theorem reply_inputs (r : Request) (v : Value) : (s.reply r v).inputs = s.inputs := rfl
@[simp] theorem reply_replies (r : Request) (v : Value) : (s.reply r v).replies = ⟨r.agent, r.seq, v⟩ :: s.replies := rfl
@[simp] theorem reply_schedule (r : Request) (v : Value) : (s.reply r v).schedule = s.schedule := rfl
@[simp] theorem reply_draws (r : Request) (v : Value) : (s.reply r v).draws = s.draws := rfl
@[simp] theorem reply_powerOns (r : Request) (v : Value) : (s.reply r v).powerOns = s.powerOns := rfl

@[simp] theorem hostWrite_cfg (a : Nat) (v : Byte) : (s.hostWrite a v).cfg = s.cfg := rfl
@[simp] theorem hostWrite_irqEn (a : Nat) (v : Byte) : (s.hostWrite a v).irqEn = s.irqEn := rfl
@[simp] theorem hostWrite_done (a : Nat) (v : Byte) : (s.hostWrite a v).done = s.done := rfl
@[simp] theorem hostWrite_overrun (a : Nat) (v : Byte) : (s.hostWrite a v).overrun = s.overrun := rfl
@[simp] theorem hostWrite_err (a : Nat) (v : Byte) : (s.hostWrite a v).err = s.err := rfl
@[simp] theorem hostWrite_cmd (a : Nat) (v : Byte) : (s.hostWrite a v).cmd = s.cmd := rfl
@[simp] theorem hostWrite_result (a : Nat) (v : Byte) : (s.hostWrite a v).result = s.result := rfl
@[simp] theorem hostWrite_errInfo (a : Nat) (v : Byte) : (s.hostWrite a v).errInfo = s.errInfo := rfl
@[simp] theorem hostWrite_args (a : Nat) (v : Byte) : (s.hostWrite a v).args = s.args := rfl
@[simp] theorem hostWrite_engine (a : Nat) (v : Byte) : (s.hostWrite a v).engine = s.engine := rfl
@[simp] theorem hostWrite_mem (a : Nat) (v : Byte) : (s.hostWrite a v).mem = Memory.write s.mem a v := rfl
@[simp] theorem hostWrite_inputs (a : Nat) (v : Byte) : (s.hostWrite a v).inputs = s.inputs := rfl
@[simp] theorem hostWrite_replies (a : Nat) (v : Byte) : (s.hostWrite a v).replies = s.replies := rfl
@[simp] theorem hostWrite_schedule (a : Nat) (v : Byte) : (s.hostWrite a v).schedule = s.schedule := rfl
@[simp] theorem hostWrite_draws (a : Nat) (v : Byte) : (s.hostWrite a v).draws = s.draws := rfl
@[simp] theorem hostWrite_powerOns (a : Nat) (v : Byte) : (s.hostWrite a v).powerOns = s.powerOns := rfl

end Sys2Proof.Machine
end

