-- ==== Sys2Proof/Laws/Ops.lean ====
section
/-! SUPPORT. What each shared operation can do, said once: the completion step, the CTRL write, the ports, and the
schedule. -/

namespace Sys2Proof.Machine

/-! ## Regions -/

theorem inRange_iff (r : Region) (cfg : Config) : r.inRange cfg = true ↔ r.Inside cfg := by
  simp [Region.inRange, Region.Inside]

/-- Two regions one of which ends where the other begins, or before, share no address (R15). -/
theorem apart_of_order {r q : Region} (h : r.base + r.size ≤ q.base ∨ q.base + q.size ≤ r.base) : r.Apart q := by
  intro a ha hb
  simp only [Region.Has] at ha hb
  omega

/-! ## Commands -/

/-- A completion is a success or an error. -/
theorem complete_cases (s : State) (o : Except CmdError Effect) :
    (∃ e, o = .ok e ∧ s.complete o = s.completeOk e) ∨ (∃ e, o = .error e ∧ s.complete o = s.raise e) := by
  cases o with
  | ok e => exact .inl ⟨e, rfl, rfl⟩
  | error e => exact .inr ⟨e, rfl, rfl⟩

/-- Every command's meaning is the completion step of its rule. -/
theorem exec_eq_complete (i : Instr) (s : State) : exec i s = .next (s.complete (commandRule i s)) := by
  cases i <;> rfl

/-- Everything a command's completion step can do. -/
theorem exec_cases {i : Instr} {s t : State} (h : exec i s = .next t) :
    (∃ e, commandRule i s = .ok e ∧ t = s.completeOk e) ∨
      (∃ e, commandRule i s = .error e ∧ t = s.raise e) := by
  rw [exec_eq_complete] at h
  obtain rfl : s.complete (commandRule i s) = t := by simpa using h
  rcases complete_cases s (commandRule i s) with ⟨e, he, hc⟩ | ⟨e, he, hc⟩
  · exact .inl ⟨e, he, hc⟩
  · exact .inr ⟨e, he, hc⟩

/-- The latched command's completion step is that of its word's rule. -/
theorem completeLatched_eq (l : Latched) (s : State) :
    completeLatched l s = .next (s.complete (wordRule l.cmd s)) := by
  unfold completeLatched wordRule
  cases decode l.cmd with
  | ok i => exact exec_eq_complete i s
  | error e => rfl

/-! ## Busy -/

theorem busy_iff (s : State) : s.busy = true ↔ ∃ l wait, s.engine = .busy l wait := by
  unfold State.busy
  cases h : s.engine <;> simp

theorem not_busy_iff (s : State) : s.busy = false ↔ s.engine = .idle := by
  unfold State.busy
  cases h : s.engine <;> simp

/-! ## The register port -/

@[simp] theorem softReset_inputs (s : State) : s.softReset.inputs = s.inputs := by
  unfold State.softReset
  split <;> rfl

/-- What a latched command would do does not depend on the model's delay, so neither does a soft reset. -/
theorem softReset_wait (s : State) (l : Latched) (wait wait' : Nat) :
    ({ s with engine := .busy l wait } : State).softReset = ({ s with engine := .busy l wait' } : State).softReset := by
  have hrule : wordRule l.cmd { s with engine := .busy l wait } = wordRule l.cmd { s with engine := .busy l wait' } := by
    unfold wordRule
    cases decode l.cmd with
    | error => rfl
    | ok i => cases i <;> rfl
  simp only [State.softReset, hrule]
  cases wordRule l.cmd { s with engine := .busy l wait' } <;> rfl

/-- Everything a START request can do (R277). -/
theorem start_cases {s t : State} {agent seq : Nat} (h : s.start agent seq = .next t) :
    (s.busy = true ∧ t = { s with overrun := true }) ∨
      (s.busy = false ∧ t = s.drawDelay.acceptStart s.nextDelay) := by
  unfold State.start at h
  cases hb : s.busy with
  | true => simp [hb] at h; exact .inl ⟨rfl, h.symm⟩
  | false =>
    simp only [hb, Bool.false_eq_true, if_false] at h
    split at h
    · cases h
    · exact .inr ⟨rfl, by simpa using h.symm⟩

/-- Everything a CTRL write can do (R277). -/
theorem writeCtrl_cases {s t : State} {agent seq : Nat} {v : Word} (h : s.writeCtrl agent seq v = .next t) :
    (v[1] = true ∧ t = s.softReset) ∨
      (v[1] = false ∧ v[0] = true ∧ s.busy = true ∧
        t = { s with irqEn := v[2], overrun := true }) ∨
      (v[1] = false ∧ v[0] = true ∧ s.busy = false ∧
        t = ({ s with irqEn := v[2] } : State).drawDelay.acceptStart s.nextDelay) ∨
      (v[1] = false ∧ v[0] = false ∧ t = { s with irqEn := v[2] }) := by
  unfold State.writeCtrl at h
  cases h1 : v[1] with
  | true => simp [h1] at h; exact .inl ⟨rfl, h.symm⟩
  | false =>
    cases h0 : v[0] with
    | true =>
      simp only [h1, h0, Bool.false_eq_true, if_false, if_true] at h
      rcases start_cases h with ⟨hb, ht⟩ | ⟨hb, ht⟩
      · exact .inr (.inl ⟨rfl, rfl, hb, ht⟩)
      · exact .inr (.inr (.inl ⟨rfl, rfl, hb, ht⟩))
    | false =>
      simp [h1, h0] at h
      exact .inr (.inr (.inr ⟨rfl, rfl, h.symm⟩))

/-- Everything a register write can do (R33 to R42, R44). -/
theorem writeReg_cases {s t : State} {agent seq : Nat} {r : Reg} {v : Word}
    (h : s.writeReg agent seq r v = .next t) :
    (r = .ctrl ∧ s.writeCtrl agent seq v = .next t) ∨ (r = .status ∧ t = s.writeStatus v) ∨
      (r = .cmd ∧ t = s.writeCmd v) ∨ (∃ i, r = .arg i ∧ t = s.writeArg i v) ∨ t = s := by
  cases r with
  | ctrl => exact .inl ⟨rfl, h⟩
  | status => exact .inr (.inl ⟨rfl, by simpa [State.writeReg] using h.symm⟩)
  | cmd => exact .inr (.inr (.inl ⟨rfl, by simpa [State.writeReg] using h.symm⟩))
  | arg i => exact .inr (.inr (.inr (.inl ⟨i, rfl, by simpa [State.writeReg] using h.symm⟩)))
  | id | params | memsize | result | errInfo | reserved =>
    exact .inr (.inr (.inr (.inr (by simpa [State.writeReg] using h.symm))))

/-- A register-port access acts only when it is a legal one (R43). -/
theorem onRegisterPort_next {size off : Nat} {act : Reg → Host.Outcome State Fault Refusal} {t : State}
    (h : onRegisterPort size off act = .next t) : registerAccessLegal size off ∧ act (regAt off) = .next t := by
  unfold onRegisterPort at h
  split at h
  · cases h
  · split at h
    · cases h
    · split at h
      · cases h
      · exact ⟨⟨by omega, by omega, by omega⟩, h⟩

/-- A legal register-port access acts (R43). -/
theorem onRegisterPort_legal {size off : Nat} (h : registerAccessLegal size off)
    (act : Reg → Host.Outcome State Fault Refusal) : onRegisterPort size off act = act (regAt off) := by
  obtain ⟨h1, h2, h3⟩ := h
  simp [onRegisterPort, h1, h2, Nat.not_le.2 h3]

/-- A memory-port access acts only below MEM_BYTES (R71). -/
theorem onMemoryPort_next {cfg : Config} {a : Nat} {s t : State} (h : onMemoryPort cfg a s = .next t) :
    memoryAccessLegal cfg a ∧ t = s := by
  unfold onMemoryPort at h
  split at h
  · exact ⟨‹_›, by simpa using h.symm⟩
  · cases h

/-- Everything an access that takes effect can do. -/
theorem perform_cases {r : Request} {rest : List Request} {s t : State} (h : perform r rest s = .next t) :
    (∃ size off, r.access = .regRead size off ∧ registerAccessLegal size off ∧
        t = ({ s with inputs := rest } : State).reply r (.word (s.readReg (regAt off)))) ∨
      (∃ size off v, r.access = .regWrite size off v ∧ registerAccessLegal size off ∧
        ({ s with inputs := rest } : State).writeReg r.agent r.seq (regAt off) v = .next t) ∨
      (∃ a, r.access = .memRead a ∧ memoryAccessLegal s.cfg a ∧
        t = ({ s with inputs := rest } : State).reply r (.byte (s.readByte a))) ∨
      (∃ a v, r.access = .memWrite a v ∧ memoryAccessLegal s.cfg a ∧
        t = ({ s with inputs := rest } : State).hostWrite a v) ∨
      (r.access = .poll ∧ s.busy = true ∧ t = s.reply r (.word s.statusWord)) ∨
      (r.access = .poll ∧ s.busy = false ∧
        t = ({ s with inputs := rest } : State).reply r (.word s.statusWord)) ∨
      (r.access = .hardReset ∧ t = ({ s with inputs := rest } : State).hardReset) := by
  unfold perform at h
  cases ha : r.access with
  | regRead size off =>
    simp only [ha] at h
    obtain ⟨hl, ht⟩ := onRegisterPort_next h
    exact .inl ⟨size, off, rfl, hl, by simpa using ht.symm⟩
  | regWrite size off v =>
    simp only [ha] at h
    obtain ⟨hl, ht⟩ := onRegisterPort_next h
    exact .inr (.inl ⟨size, off, v, rfl, hl, ht⟩)
  | memRead a =>
    simp only [ha] at h
    obtain ⟨hl, ht⟩ := onMemoryPort_next h
    exact .inr (.inr (.inl ⟨a, rfl, hl, ht⟩))
  | memWrite a v =>
    simp only [ha] at h
    obtain ⟨hl, ht⟩ := onMemoryPort_next h
    exact .inr (.inr (.inr (.inl ⟨a, v, rfl, hl, ht⟩)))
  | poll =>
    cases hb : s.busy with
    | true =>
      simp only [ha, hb, if_true] at h
      exact .inr (.inr (.inr (.inr (.inl ⟨rfl, rfl, by simpa using h.symm⟩))))
    | false =>
      simp only [ha, hb, Bool.false_eq_true, if_false] at h
      exact .inr (.inr (.inr (.inr (.inr (.inl ⟨rfl, rfl, by simpa using h.symm⟩)))))
  | hardReset =>
    simp only [ha] at h
    exact .inr (.inr (.inr (.inr (.inr (.inr ⟨rfl, by simpa using h.symm⟩)))))

/-! ## The schedule -/

/-- The first access that is not held stands in the queue, and the rest of the queue is what is left. -/
theorem takeUnheld_some {queue rest : List Request} {r : Request} (h : takeUnheld queue = some (r, rest)) :
    r ∈ queue ∧ r.access.held = false ∧ (∀ q ∈ rest, q ∈ queue) ∧
      ∀ q ∈ queue, q.access.held = true → q ∈ rest := by
  induction queue generalizing rest with
  | nil => simp [takeUnheld] at h
  | cons p queue ih =>
    cases hp : p.access.held with
    | false =>
      simp only [takeUnheld, hp, Bool.false_eq_true, if_false, Option.some.injEq, Prod.mk.injEq] at h
      obtain ⟨rfl, rfl⟩ := h
      refine ⟨List.mem_cons_self, hp, fun q hq => List.mem_cons_of_mem _ hq, fun q hq hheld => ?_⟩
      rcases List.mem_cons.1 hq with rfl | hq
      · simp [hp] at hheld
      · exact hq
    | true =>
      simp only [takeUnheld, hp, if_true] at h
      cases ht : takeUnheld queue with
      | none => simp [ht] at h
      | some found =>
        obtain ⟨q, others⟩ := found
        simp only [ht, Option.some.injEq, Prod.mk.injEq] at h
        obtain ⟨rfl, rfl⟩ := h
        obtain ⟨hmem, hfree, hrest, hheld⟩ := ih ht
        refine ⟨List.mem_cons_of_mem _ hmem, hfree, fun x hx => ?_, fun x hx hxh => ?_⟩
        · rcases List.mem_cons.1 hx with rfl | hx
          · exact List.mem_cons_self
          · exact List.mem_cons_of_mem _ (hrest x hx)
        · rcases List.mem_cons.1 hx with rfl | hx
          · exact List.mem_cons_self
          · exact List.mem_cons_of_mem _ (hheld x hx hxh)

/-- No access is free exactly when every access is held. -/
theorem takeUnheld_none {queue : List Request} (h : takeUnheld queue = none) :
    ∀ r ∈ queue, r.access.held = true := by
  induction queue with
  | nil => simp
  | cons p queue ih =>
    cases hp : p.access.held with
    | false => simp [takeUnheld, hp] at h
    | true =>
      simp only [takeUnheld, hp, if_true] at h
      cases ht : takeUnheld queue with
      | none =>
        intro r hr
        rcases List.mem_cons.1 hr with rfl | hr
        · exact hp
        · exact ih ht r hr
      | some found => simp [ht] at h

/-- Everything a step can do. -/
theorem step_cases (s : State) :
    (s.engine = .idle ∧ s.inputs = [] ∧ step s = .next s) ∨
      (∃ r rest, s.engine = .idle ∧ s.inputs = r :: rest ∧ step s = perform r rest s) ∨
      (∃ l wait, s.engine = .busy l wait ∧ (wait = 0 ∨ takeUnheld s.inputs = none) ∧
        step s = .next (s.complete (wordRule l.cmd s))) ∨
      (∃ l wait r rest, s.engine = .busy l (wait + 1) ∧ takeUnheld s.inputs = some (r, rest) ∧
        step s = perform r rest { s with engine := .busy l wait }) := by
  unfold step advance
  cases he : s.engine with
  | idle =>
    cases hi : s.inputs with
    | nil => exact .inl ⟨rfl, rfl, rfl⟩
    | cons r rest => exact .inr (.inl ⟨r, rest, rfl, rfl, rfl⟩)
  | busy l wait =>
    cases wait with
    | zero => exact .inr (.inr (.inl ⟨l, 0, rfl, .inl rfl, completeLatched_eq l s⟩))
    | succ wait =>
      cases ht : takeUnheld s.inputs with
      | none => exact .inr (.inr (.inl ⟨l, wait + 1, rfl, .inr rfl, by simpa using completeLatched_eq l s⟩))
      | some found => exact .inr (.inr (.inr ⟨l, wait, found.1, found.2, rfl, rfl, rfl⟩))

end Sys2Proof.Machine
end

