-- ==== Sys2Proof/Laws/Flags.lean ====
section
/-! SUPPORT. What the host reads in STATUS and ERR_INFO, field by field, and how an error of a command's rule reads. -/

namespace Sys2Proof.Machine

variable (s : State)

@[simp] theorem statusWord_busy : s.statusWord[0] = s.busy := by
  unfold State.statusWord
  generalize s.busy = b, s.done = d, s.overrun = o, s.err = e
  cases b <;> cases d <;> cases o <;> cases e <;> rfl

@[simp] theorem statusWord_done : s.statusWord[1] = s.done := by
  unfold State.statusWord
  generalize s.busy = b, s.done = d, s.overrun = o, s.err = e
  cases b <;> cases d <;> cases o <;> cases e <;> rfl

@[simp] theorem statusWord_overrun : s.statusWord[2] = s.overrun := by
  unfold State.statusWord
  generalize s.busy = b, s.done = d, s.overrun = o, s.err = e
  cases b <;> cases d <;> cases o <;> cases e <;> rfl

@[simp] theorem statusWord_err : s.statusWord.extractLsb' 4 4 = s.err.code := by
  unfold State.statusWord
  generalize s.busy = b, s.done = d, s.overrun = o, s.err = e
  cases b <;> cases d <;> cases o <;> cases e <;> rfl

/-- ERR_INFO is CAUSE plus INDEX shifted by 8 (R40, R270). -/
theorem errInfo_word_toNat (e : ErrInfo) : e.word.toNat = e.cause.code.toNat + 2 ^ 8 * e.index.toNat := by
  have hc : e.cause.code.toNat < 2 ^ 8 := e.cause.code.isLt
  have hi : e.index.toNat < 2 ^ 16 := e.index.isLt
  have hs : e.index.toNat <<< 8 < 2 ^ 32 := by rw [Nat.shiftLeft_eq]; omega
  simp only [ErrInfo.word, BitVec.toNat_or, BitVec.toNat_shiftLeft, BitVec.toNat_setWidth]
  rw [Nat.mod_eq_of_lt (show e.cause.code.toNat < 2 ^ 32 by omega),
    Nat.mod_eq_of_lt (show e.index.toNat < 2 ^ 32 by omega), Nat.mod_eq_of_lt hs, Nat.or_comm,
    ← Nat.shiftLeft_add_eq_or_of_lt hc, Nat.shiftLeft_eq]
  omega

/-- A command whose rule ends with an error reports it with the numbers of R270. -/
theorem reports_of_error {i : Instr} {e : CmdError} (h : commandRule i s = .error e) :
    Reports i s e.cause.err.code.toNat e.cause.code.toNat e.index := by
  refine ⟨s.raise e, ?_, ?_, ?_, rfl⟩
  · rw [exec_eq_complete, h]; rfl
  · simp [State.readReg]
  · simp [State.readReg, errInfo_word_toNat]

end Sys2Proof.Machine
end

