-- ==== Sys2Proof/Laws/PerInstr.lean ====
section
/-! SUPPORT. Statements for all commands, one lemma per constructor of Instr: the shape of the command word (R100),
and how many argument registers a command uses (R103). -/

namespace Sys2Proof.Laws.CommandWord

/-- The command word's RSVD field is 0, its OPCODE is not 0 (R100, R102), and the command uses one to nine argument
registers (R103). -/
def Statement (i : Instr) : Prop :=
  rsvdField (encode i) = 0#24 ∧ opcodeField (encode i) ≠ 0#8 ∧ 1 ≤ Machine.arity i ∧ Machine.arity i ≤ 9

theorem gfMul : Statement .gfMul := by unfold Statement; decide

theorem gfDiv : Statement .gfDiv := by unfold Statement; decide

theorem gfInv : Statement .gfInv := by unfold Statement; decide

theorem expand : Statement .expand := by unfold Statement; decide

theorem invert : Statement .invert := by unfold Statement; decide

theorem derive : Statement .derive := by unfold Statement; decide

theorem dotp : Statement .dotp := by unfold Statement; decide

theorem encode : Statement .encode := by unfold Statement; decide

end Sys2Proof.Laws.CommandWord
end

