-- ==== Sys2Proof/Tests/Slice0.lean ====
section
/-! SUPPORT. Tests: the smoke test of the well-formedness checks, decoding, at most two small tests per command taken
from spec/95_test_vectors.md, and for each statement with hypotheses a witness that meets them. -/

namespace Sys2Proof.Tests

open Sys2Proof.Machine

/-! ## Small states -/

def argWord (l : List Nat) (n : Nat) : Word := BitVec.ofNat 32 (l.getD n 0)

def argVector (l : List Nat) : Vector Word 9 :=
  #v[argWord l 0, argWord l 1, argWord l 2, argWord l 3, argWord l 4, argWord l 5, argWord l 6, argWord l 7, argWord l 8]

def bytes (l : List Nat) : List Byte := l.map (BitVec.ofNat 8)

/-- After reset, with ARG0.. and the operand memory given. -/
def ready (args : List Nat) (mem : Memory) : State := { State.reset with args := argVector args, mem := mem }

/-- The same with a command word started and `wait` host accesses still to come. -/
def running (cmd : Word) (wait : Nat) (s : State) : State :=
  { s with cmd := cmd, engine := .busy ⟨cmd, s.args⟩ wait }

/-- The next state, if there is one. -/
def after (o : Host.Outcome State Fault Refusal) : State :=
  match o with
  | .next t => t
  | .fault _ => State.reset
  | .refused _ => State.reset

/-- ERR, ERR_INFO and RESULT as read after a command. -/
def report (o : Host.Outcome State Fault Refusal) : ErrCode × Word × Word :=
  ((after o).err, (after o).readReg .errInfo, (after o).readReg .result)

def request (a : Access) : Request := ⟨0, 7, a⟩

/-! ## Well-formedness: an ill-formed term for each check -/

theorem test_legal_default : Config.default.Legal := by decide

theorem test_illegal_kMax_zero : ¬({ Config.default with kMax := 0 } : Config).Legal := by decide

theorem test_illegal_kMax_above_mMax : ¬({ Config.default with kMax := 65 } : Config).Legal := by decide

theorem test_illegal_mMax : ¬({ Config.default with mMax := 257 } : Config).Legal := by decide

theorem test_illegal_memBytes_small : ¬({ Config.default with memBytes := 255 } : Config).Legal := by decide

theorem test_illegal_memBytes_large : ¬({ Config.default with memBytes := 2 ^ 32 + 1 } : Config).Legal := by decide

theorem test_illegal_register_size : ¬registerAccessLegal 1 0x10 := by decide

theorem test_illegal_register_alignment : ¬registerAccessLegal 4 0x12 := by decide

theorem test_illegal_register_offset : registerAccessLegal 4 0xFC ∧ ¬registerAccessLegal 4 0x100 := by decide

theorem test_illegal_memory_address :
    memoryAccessLegal Config.default 65535 ∧ ¬memoryAccessLegal Config.default 65536 := by decide

theorem test_every_command_wellFormed : Instr.wellFormed .derive = true := by decide

theorem test_illegal_operand_count : (Statement.command .gfMul [1#32] false).wellFormed = false := by decide

theorem test_illegal_statement_offset : (Statement.wr 0x21 1#32).wellFormed = false := by decide

theorem test_memory_not_canonical : ¬Memory.wf [(5, 1#8), (4, 2#8)] ∧ ¬Memory.wf [(4, 1#8), (4, 2#8)] := by decide

/-! ## Decoding: the words of R101, bit by bit (RSVD, then OPCODE) -/

theorem test_decode_gfMul : decode 0b00000000000000000000000000000001#32 = .ok .gfMul := by rfl

theorem test_decode_gfDiv : decode 0b00000000000000000000000000000010#32 = .ok .gfDiv := by rfl

theorem test_decode_gfInv : decode 0b00000000000000000000000000000011#32 = .ok .gfInv := by rfl

theorem test_decode_expand : decode 0b00000000000000000000000000010000#32 = .ok .expand := by rfl

theorem test_decode_invert : decode 0b00000000000000000000000000100000#32 = .ok .invert := by rfl

theorem test_decode_derive : decode 0b00000000000000000000000000110000#32 = .ok .derive := by rfl

theorem test_decode_dotp : decode 0b00000000000000000000000001000000#32 = .ok .dotp := by rfl

theorem test_decode_encode : decode 0b00000000000000000000000001000001#32 = .ok .encode := by rfl

theorem test_decode_reserved : decode 0b00000000000000000000000100000001#32 = .error .reservedBits := by rfl

theorem test_decode_unassigned : decode 0b00000000000000000000000000000100#32 = .error .unassignedOpcode := by rfl

theorem test_tableWord_encode : decodeTableWord 32 0x41 = some .encode := by rfl

theorem test_placed_word_runs : (after (step (State.reset.withFetchWord 32 0x01))).readReg .status = 0x02#32 := by
  decide

/-! ## Scalar commands (V10, V11, V12) -/

theorem test_gfMul : report (exec .gfMul (ready [0x53, 0xCA] [])) = (.ok, 0#32, 0x8F#32) := by decide

theorem test_gfMul_ignores_high_bits : report (exec .gfMul (ready [0x102, 3] [])) = (.ok, 0#32, 0x06#32) := by decide

theorem test_gfDiv : report (exec .gfDiv (ready [0x12, 0x34] [])) = (.ok, 0#32, 0xC7#32) := by decide +kernel

theorem test_gfDiv_by_zero : report (exec .gfDiv (ready [5, 0x100] [])) = (.domain, 0x120#32, 0#32) := by
  decide +kernel

theorem test_gfInv : report (exec .gfInv (ready [0xCA] [])) = (.ok, 0#32, 0x62#32) := by decide +kernel

theorem test_gfInv_zero : report (exec .gfInv (ready [0x100, 9] [])) = (.domain, 0x20#32, 0#32) := by decide +kernel

/-! ## EXPAND (V20, V22) -/

/-- One coefficient 0x47 at 0x10, its table at 0x100. -/
def expandOne : State := ready [1, 1, 0x10, 0x100] (cellsAt 0x10 (bytes [0x47]))

/-- The same coefficient elsewhere, the table at the end of memory. -/
def expandAtEnd : State := ready [1, 1, 0, 0xFFE0] (cellsAt 0 (bytes [0x47]))

theorem test_expand : (after (exec .expand expandOne)).readBytes 0x100 32 =
    bytes [0x00, 0x47, 0x8E, 0xC9, 0x01, 0x46, 0x8F, 0xC8, 0x02, 0x45, 0x8C, 0xCB, 0x03, 0x44, 0x8D, 0xCA,
      0x00, 0x04, 0x08, 0x0C, 0x10, 0x14, 0x18, 0x1C, 0x20, 0x24, 0x28, 0x2C, 0x30, 0x34, 0x38, 0x3C] := by
  decide +kernel

theorem test_expand_first_check_wins :
    report (exec .expand (ready [0, 0, 0x10000, 0x10000] [])) = (.precond, 0x001#32, 0#32) := by decide +kernel

theorem witness_expand_runs : ExpandRuns expandOne :=
  ⟨by decide, by decide, by decide, by decide, apart_of_order (by decide)⟩

theorem witness_expand_runs_at_end : ExpandRuns expandAtEnd :=
  ⟨by decide, by decide, by decide, by decide, apart_of_order (by decide)⟩

abbrev ExpandCounts0 (s : State) : Prop := 1 ≤ s.u32 0 ∧ s.u32 0 ≤ s.cfg.kMax

abbrev ExpandCounts1 (s : State) : Prop := 1 ≤ s.u32 1 ∧ s.u32 1 ≤ s.cfg.mMax

abbrev expandMat (s : State) : Region := ⟨s.addr 2, s.u32 1 * s.u32 0⟩

abbrev expandTbl (s : State) : Region := ⟨s.addr 3, 32 * s.u32 0 * s.u32 1⟩

def expandBad1 : State := ready [1, 65, 0, 0x100] []

def expandBad2 : State := ready [2, 2, 0xFFFE, 0x100] []

def expandBad3 : State := ready [2, 2, 0x10, 0xFF90] []

def expandBad4 : State := ready [1, 1, 0x10, 0x10] []

/-- The first failing check of R152, clause by clause, with the checks before it passing (V22). -/
theorem witness_expand_checks :
    ¬ExpandCounts0 (ready [33, 1, 0, 0x100] []) ∧ (ExpandCounts0 expandBad1 ∧ ¬ExpandCounts1 expandBad1) ∧
      (ExpandCounts0 expandBad2 ∧ ExpandCounts1 expandBad2 ∧ ¬(expandMat expandBad2).Inside expandBad2.cfg) ∧
      (ExpandCounts0 expandBad3 ∧ ExpandCounts1 expandBad3 ∧ (expandMat expandBad3).Inside expandBad3.cfg ∧
        ¬(expandTbl expandBad3).Inside expandBad3.cfg) ∧
      ExpandCounts0 expandBad4 ∧ ExpandCounts1 expandBad4 ∧ (expandMat expandBad4).Inside expandBad4.cfg ∧
        (expandTbl expandBad4).Inside expandBad4.cfg ∧ ¬(expandTbl expandBad4).Apart (expandMat expandBad4) :=
  ⟨by decide, by decide, by decide, by decide, by decide, by decide, by decide, by decide,
    fun h => h 0x10 (by decide) (by decide)⟩

theorem witness_expand_same_matrix :
    expandOne.u32 0 = expandAtEnd.u32 0 ∧ expandOne.u32 1 = expandAtEnd.u32 1 ∧
      (∀ n < expandOne.u32 1 * expandOne.u32 0,
        expandOne.readByte (expandOne.addr 2 + n) = expandAtEnd.readByte (expandAtEnd.addr 2 + n)) ∧
      (∃ t, exec .expand expandOne = .next t) ∧ ∃ t, exec .expand expandAtEnd = .next t :=
  ⟨by decide, by decide, by decide, ⟨_, rfl⟩, ⟨_, rfl⟩⟩

/-! ## INVERT (V30, V31) -/

def invertTwo (l : List Nat) : State := ready [2, 0x100, 0x104] (cellsAt 0x100 (bytes l))

theorem test_invert : (after (exec .invert (invertTwo [1, 2, 3, 4]))).readBytes 0x104 4 = bytes [2, 1, 0x8F, 0x8E] := by
  decide +kernel

theorem test_invert_singular : report (exec .invert (invertTwo [1, 1, 1, 1])) = (.singular, 0x110#32, 0#32) := by
  decide +kernel

theorem invertTwo_runs (l : List Nat) : InvertRuns (invertTwo l) :=
  ⟨by show (1 ≤ 2 ∧ 2 ≤ 32); decide, by show (Region.mk 0x100 (2 * 2)).Inside Config.default; decide,
    by show (Region.mk 0x104 (2 * 2)).Inside Config.default; decide,
    by show (Region.mk 0x104 (2 * 2)).Apart ⟨0x100, 2 * 2⟩; exact apart_of_order (by decide)⟩

theorem witness_invert_runs : InvertRuns (invertTwo [1, 2, 3, 4]) ∧
    ∃ x, gjInvert ((invertTwo [1, 2, 3, 4]).readMatrix 0x100 2 2) 2 = .ok x :=
  ⟨invertTwo_runs _, [bytes [2, 1], bytes [0x8F, 0x8E]], by decide +kernel⟩

theorem witness_invert_singular : InvertRuns (invertTwo [1, 1, 1, 1]) ∧
    gjInvert ((invertTwo [1, 1, 1, 1]).readMatrix 0x100 2 2) 2 = .error 1 :=
  ⟨invertTwo_runs _, by decide +kernel⟩

abbrev invertInput (s : State) : Region := ⟨s.addr 1, s.u32 0 * s.u32 0⟩

abbrev invertOutput (s : State) : Region := ⟨s.addr 2, s.u32 0 * s.u32 0⟩

def invertBad1 : State := ready [2, 0xFFFD, 0] []

def invertBad2 : State := ready [2, 0, 0xFFFD] []

def invertBad3 : State := ready [2, 0x100, 0x103] []

/-- The first failing check of R173, clause by clause, with the checks before it passing (V31). -/
theorem witness_invert_checks :
    ¬ExpandCounts0 (ready [33, 0, 0x1000] []) ∧
      (ExpandCounts0 invertBad1 ∧ ¬(invertInput invertBad1).Inside invertBad1.cfg) ∧
      (ExpandCounts0 invertBad2 ∧ (invertInput invertBad2).Inside invertBad2.cfg ∧
        ¬(invertOutput invertBad2).Inside invertBad2.cfg) ∧
      ExpandCounts0 invertBad3 ∧ (invertInput invertBad3).Inside invertBad3.cfg ∧
        (invertOutput invertBad3).Inside invertBad3.cfg ∧ ¬(invertOutput invertBad3).Apart (invertInput invertBad3) :=
  ⟨by decide, by decide, by decide, by decide, by decide, by decide, fun h => h 0x103 (by decide) (by decide)⟩

def twoByTwo (r c : Nat) : Byte := BitVec.ofNat 8 (2 * r + c + 1)

theorem witness_elimination_ok : gjInvert (matrixOf 2 2 twoByTwo) 2 = .ok [bytes [2, 1], bytes [0x8F, 0x8E]] ∧
    InverseOf 2 twoByTwo (entry [bytes [2, 1], bytes [0x8F, 0x8E]]) :=
  ⟨by decide +kernel, by unfold InverseOf; decide +kernel⟩

theorem witness_elimination_fails :
    gjInvert (matrixOf 2 2 fun _ _ => 1#8) 2 = .error 1 ∧ gjInvert (matrixOf 2 2 fun _ _ => 0#8) 2 = .error 0 :=
  ⟨by decide +kernel, by decide +kernel⟩

/-- A zero row, and a zero column after an independent one. -/
def oneCorner (r c : Nat) : Byte := if r = 0 ∧ c = 0 then 1#8 else 0#8

theorem witness_elimination_zero_column : (∀ c < 2, oneCorner 1 c = 0#8) ∧ (∀ r < 2, oneCorner r 1 = 0#8) ∧
    ∀ c' < 1, ¬ColumnsDependent 2 oneCorner c' := by
  refine ⟨by decide, by decide, fun c' hc => ?_⟩
  obtain rfl : c' = 0 := by omega
  rintro ⟨w, ⟨j, hj, hw⟩, h⟩
  obtain rfl : j = 0 := by omega
  have h0 : 0#8 ^^^ gmul (w 0) 1#8 = 0#8 := h 0 (by decide)
  generalize w 0 = a at hw h0
  revert a
  decide +kernel

/-! ## DERIVE (V40, V43, V44) -/

/-- The Cauchy matrix of V3 at 0, a descriptor at 0x400 and 0x500, and the given arguments. -/
def deriveState (dense sparse args : List Nat) : State :=
  ready args
    (cellsAt 0 (bytes [1, 0, 0, 0, 0, 1, 0, 0, 0, 0, 1, 0, 0, 0, 0, 1, 0x47, 0xA7, 0x7A, 0xBA, 0xA7, 0x47, 0xBA, 0x7A])
      ++ cellsAt 0x400 (bytes dense) ++ cellsAt 0x500 (bytes sparse))

/-- V40: rows 1 and 4 erased. -/
def derive14 : State := deriveState [0, 1, 0, 0, 1, 0] [1, 4] [4, 6, 2, 1, 0, 0x400, 0x500, 0x600, 0x700]

/-- V44: no erasure, a zero matrix on top. -/
def deriveZero : State :=
  ready [2, 2, 0, 0, 0, 0x400, 0x500, 0x600, 0x700] (cellsAt 0 (bytes [0, 0, 0, 0]) ++ cellsAt 0x400 (bytes [0, 0]))

theorem test_derive : (after (exec .derive derive14)).readBytes 0x600 8 =
    bytes [0xA6, 0xD2, 0xF5, 0x04, 0x92, 0x40, 0x8B, 0xA6] ∧
      (after (exec .derive derive14)).readBytes 0x700 4 = bytes [0, 2, 3, 5] := by decide +kernel

theorem test_derive_singular : report (exec .derive deriveZero) = (.singular, 0x010#32, 0#32) := by decide +kernel

theorem derive14_apart : DeriveApart derive14 :=
  have h : ∀ o ∈ deriveOutputs derive14, ∀ i ∈ deriveInputs derive14,
      o.base + o.size ≤ i.base ∨ i.base + i.size ≤ o.base := by decide
  ⟨fun o ho i hi => apart_of_order (h o ho i hi), apart_of_order (by decide)⟩

theorem witness_derive_runs : DeriveRuns derive14 ∧ derive14.cfg.Legal :=
  ⟨⟨by unfold DeriveCounts; decide, by decide, derive14_apart, by unfold DescriptorConsistent; decide +kernel⟩,
    by decide⟩

theorem deriveZero_apart : DeriveApart deriveZero :=
  have h : ∀ o ∈ deriveOutputs deriveZero, ∀ i ∈ deriveInputs deriveZero,
      o.base + o.size ≤ i.base ∨ i.base + i.size ≤ o.base := by decide
  ⟨fun o ho i hi => apart_of_order (h o ho i hi), apart_of_order (by decide)⟩

theorem witness_derive_singular : DeriveRuns deriveZero ∧ gjInvert (selectionMatrix deriveZero) 2 = .error 0 :=
  ⟨⟨by unfold DeriveCounts; decide, by decide, deriveZero_apart, by unfold DescriptorConsistent; decide +kernel⟩,
    by decide +kernel⟩

theorem witness_derive_completes :
    (∃ binv, gjInvert (selectionMatrix derive14) (derive14.u32 0) = .ok binv) ∧
      (∃ t, exec .derive derive14 = .next t ∧ t.err = .ok) ∧
      ∀ r < derive14.u32 0, ∀ c < derive14.u32 0,
        derive14.readByte (derive14.addr 4 + r * derive14.u32 0 + c) = if r = c then 1#8 else 0#8 :=
  ⟨⟨[bytes [1, 0, 0, 0], bytes [0xA6, 0xD2, 0xF5, 4], bytes [0, 1, 0, 0], bytes [0, 0, 1, 0]], by decide +kernel⟩,
    ⟨_, rfl, by decide +kernel⟩, by decide +kernel⟩

abbrev DeriveCounts1 (s : State) : Prop := s.u32 0 ≤ s.u32 1 ∧ s.u32 1 ≤ s.cfg.mMax

abbrev DeriveCounts2 (s : State) : Prop := s.u32 2 ≤ s.u32 1 - s.u32 0

abbrev DeriveCounts3 (s : State) : Prop := s.u32 3 ≤ min (s.u32 2) (s.u32 0)

/-- The first failing check of R196, clause by clause, with the checks before it passing (V43): the counts. -/
theorem witness_derive_counts :
    ¬ExpandCounts0 (ready [33, 40] []) ∧ (ExpandCounts0 (ready [4, 3] []) ∧ ¬DeriveCounts1 (ready [4, 3] [])) ∧
      (ExpandCounts0 (ready [4, 6, 3] []) ∧ DeriveCounts1 (ready [4, 6, 3] []) ∧ ¬DeriveCounts2 (ready [4, 6, 3] [])) ∧
      ExpandCounts0 (ready [4, 6, 2, 3] []) ∧ DeriveCounts1 (ready [4, 6, 2, 3] []) ∧
        DeriveCounts2 (ready [4, 6, 2, 3] []) ∧ ¬DeriveCounts3 (ready [4, 6, 2, 3] []) := by
  decide

def deriveBadEnc : State := deriveState [0, 1, 0, 0, 1, 0] [1, 4] [4, 6, 2, 1, 0xFFF0, 0x400, 0x500, 0x600, 0x700]

def deriveBadIdx : State := deriveState [0, 1, 0, 0, 1, 0] [1, 4] [4, 6, 2, 1, 0, 0x400, 0x500, 0x600, 0xFFFD]

theorem witness_derive_regions :
    (DeriveCounts deriveBadEnc ∧ (deriveInputs deriveBadEnc ++ deriveOutputs deriveBadEnc)[0]? = some ⟨0xFFF0, 24⟩ ∧
        ¬(Region.mk 0xFFF0 24).Inside Config.default) ∧
      DeriveCounts deriveBadIdx ∧ (deriveInputs deriveBadIdx ++ deriveOutputs deriveBadIdx)[4]? = some ⟨0xFFFD, 4⟩ ∧
        ¬(Region.mk 0xFFFD 4).Inside Config.default ∧
        ∀ n' < 4, ∀ q ∈ (deriveInputs deriveBadIdx ++ deriveOutputs deriveBadIdx)[n']?, q.Inside Config.default :=
  ⟨⟨by unfold DeriveCounts; decide, by decide, by decide⟩, by unfold DeriveCounts; decide, by decide, by decide,
    by decide⟩

def deriveOverlap : State := deriveState [0, 1, 0, 0, 1, 0] [1, 4] [4, 6, 2, 1, 0, 0x400, 0x500, 0x10, 0x700]

theorem witness_derive_overlap : DeriveCounts deriveOverlap ∧
    (∀ r ∈ deriveInputs deriveOverlap ++ deriveOutputs deriveOverlap, r.Inside deriveOverlap.cfg) ∧
      ¬DeriveApart deriveOverlap :=
  ⟨by unfold DeriveCounts; decide, by decide,
    fun h => h.1 ⟨0x10, 8⟩ (by decide) ⟨0, 24⟩ (by decide) 0x10 (by decide) (by decide)⟩

def deriveDescending : State := deriveState [0, 1, 0, 0, 1, 0] [4, 1] [4, 6, 2, 1, 0, 0x400, 0x500, 0x600, 0x700]

theorem witness_derive_inconsistent : DeriveCounts deriveDescending ∧
    (∀ r ∈ deriveInputs deriveDescending ++ deriveOutputs deriveDescending, r.Inside deriveDescending.cfg) ∧
      DeriveApart deriveDescending ∧ ¬DescriptorConsistent deriveDescending :=
  ⟨by unfold DeriveCounts; decide, by decide, derive14_apart, by unfold DescriptorConsistent; decide +kernel⟩

/-! ## DOTP (V51, V55) -/

/-- V51: entry E(8E) at 0x100, input at 0x200, its pointer at 0x300. -/
def dotpState (args ptr : List Nat) : State :=
  ready args (cellsAt 0x100 (tableEntry 0x8E#8) ++ cellsAt 0x200 (bytes [2, 1]) ++ cellsAt 0x300 (bytes ptr))

def dotpGood : State := dotpState [2, 1, 0x100, 0x300, 0x400] [0, 2, 0, 0]

theorem test_dotp : (after (exec .dotp dotpGood)).readBytes 0x400 2 = bytes [0x01, 0x8E] := by decide +kernel

theorem test_dotp_dest_outside :
    report (exec .dotp (dotpState [2, 1, 0x100, 0x300, 0xFFFF] [0, 2, 0, 0])) = (.precond, 0x402#32, 0#32) := by
  decide +kernel

theorem witness_dotp_runs : DotpRuns dotpGood :=
  ⟨by unfold DotpDirect; decide, by decide +kernel, apart_of_order (by decide), apart_of_order (by decide),
    fun i hi => apart_of_order
      ((by decide +kernel : ∀ i < 1, 0x400 + 2 ≤ (dotpGood.buffer 0x300 2 i).base ∨
        (dotpGood.buffer 0x300 2 i).base + (dotpGood.buffer 0x300 2 i).size ≤ 0x400) i hi)⟩

abbrev DotpCounts (s : State) : Prop := 1 ≤ s.u32 0 ∧ 1 ≤ s.u32 1 ∧ s.u32 1 ≤ s.cfg.kMax

abbrev dotpTbl (s : State) : Region := ⟨s.addr 2, 32 * s.u32 1⟩

abbrev dotpSrcv (s : State) : Region := ⟨s.addr 3, 4 * s.u32 1⟩

abbrev dotpDest (s : State) : Region := ⟨s.addr 4, s.u32 0⟩

def dotpBad2 : State := ready [2, 1, 0xFFF0, 0x300, 0x400] []

def dotpBad3 : State := ready [2, 1, 0x100, 0xFFFD, 0x400] []

def dotpBad4 : State := ready [2, 1, 0x100, 0x300, 0xFFFF] []

/-- The first failing direct check of R221, clause by clause, with the checks before it passing (V55). -/
theorem witness_dotp_direct :
    (ready [0, 1] []).u32 0 = 0 ∧
      (1 ≤ (ready [1, 33] []).u32 0 ∧ ¬(1 ≤ (ready [1, 33] []).u32 1 ∧ (ready [1, 33] []).u32 1 ≤ 32)) ∧
      (DotpCounts dotpBad2 ∧ ¬(dotpTbl dotpBad2).Inside dotpBad2.cfg) ∧
      (DotpCounts dotpBad3 ∧ (dotpTbl dotpBad3).Inside dotpBad3.cfg ∧ ¬(dotpSrcv dotpBad3).Inside dotpBad3.cfg) ∧
      DotpCounts dotpBad4 ∧ (dotpTbl dotpBad4).Inside dotpBad4.cfg ∧ (dotpSrcv dotpBad4).Inside dotpBad4.cfg ∧
        ¬(dotpDest dotpBad4).Inside dotpBad4.cfg := by decide

def dotpBadPointer : State := dotpState [2, 1, 0x100, 0x300, 0x400] [0, 0, 2, 0]

def dotpInPlace : State := dotpState [2, 1, 0x100, 0x300, 0x201] [0, 2, 0, 0]

theorem witness_dotp_pointer :
    DotpDirect dotpBadPointer ∧ ¬(dotpBadPointer.buffer (dotpBadPointer.addr 3) (dotpBadPointer.u32 0) 0).Inside
      dotpBadPointer.cfg := ⟨by unfold DotpDirect; decide, by decide +kernel⟩

theorem witness_dotp_overlap : DotpDirect dotpInPlace ∧
    (∀ i < dotpInPlace.u32 1, (dotpInPlace.buffer (dotpInPlace.addr 3) (dotpInPlace.u32 0) i).Inside dotpInPlace.cfg) ∧
      ¬DotpApart dotpInPlace :=
  ⟨by unfold DotpDirect; decide, by decide +kernel,
    fun h => h.2.2 0 (by decide) 0x201 (by decide) (by decide +kernel)⟩

/-! ## ENCODE (V50, V55) -/

/-- V50: entries E(02), E(03) at 0x100, inputs at 0x200, srcv at 0x300, destv at 0x310. -/
def encodeState (args srcs dests : List Nat) : State :=
  ready args
    (cellsAt 0x100 (tableEntry 2#8 ++ tableEntry 3#8) ++ cellsAt 0x200 (bytes [0x80, 7]) ++
      cellsAt 0x300 (bytes srcs) ++ cellsAt 0x310 (bytes dests))

def encodeGood : State := encodeState [1, 2, 1, 0x100, 0x300, 0x310] [0, 2, 0, 0, 1, 2, 0, 0] [0, 4, 0, 0]

theorem test_encode : (after (exec .encode encodeGood)).readBytes 0x400 1 = bytes [0x14] := by decide +kernel

theorem test_encode_outputs_overlap :
    report (exec .encode (encodeState [2, 1, 2, 0x100, 0x300, 0x310] [0, 2, 0, 0, 0, 0, 0, 0] [0, 4, 0, 0, 1, 4, 0, 0])) =
      (.precond, 0x005#32, 0#32) := by decide +kernel

theorem encodeGood_order : ∀ j < 1,
    (∀ q ∈ [(Region.mk 0x100 64), ⟨0x300, 8⟩, ⟨0x310, 4⟩], (encodeOutput encodeGood j).base + 1 ≤ q.base ∨
      q.base + q.size ≤ (encodeOutput encodeGood j).base) ∧
      ∀ i < 2, (encodeOutput encodeGood j).base + 1 ≤ (encodeInput encodeGood i).base ∨
        (encodeInput encodeGood i).base + 1 ≤ (encodeOutput encodeGood j).base := by decide +kernel

theorem witness_encode_runs : EncodeRuns encodeGood :=
  ⟨by unfold EncodeDirect; decide, by decide +kernel, by decide +kernel, fun j hj =>
    have h := encodeGood_order j hj
    ⟨apart_of_order (h.1 ⟨0x100, 64⟩ (by decide)), apart_of_order (h.1 ⟨0x300, 8⟩ (by decide)),
      apart_of_order (h.1 ⟨0x310, 4⟩ (by decide)), fun i hi => apart_of_order (h.2 i hi), fun j' hj' hne =>
        absurd (show j' < 1 from hj') (by have : j < 1 := hj; omega)⟩⟩

abbrev EncodeCounts (s : State) : Prop := DotpCounts s ∧ 1 ≤ s.u32 2 ∧ s.u32 2 ≤ s.cfg.mMax

abbrev encodeTbl (s : State) : Region := ⟨s.addr 3, 32 * s.u32 1 * s.u32 2⟩

abbrev encodeSrcv (s : State) : Region := ⟨s.addr 4, 4 * s.u32 1⟩

abbrev encodeDestv (s : State) : Region := ⟨s.addr 5, 4 * s.u32 2⟩

def encodeBad3 : State := ready [4, 1, 1, 0xFFF0, 0x300, 0x310] []

def encodeBad4 : State := ready [4, 1, 1, 0x100, 0xFFFE, 0x310] []

def encodeBad5 : State := ready [4, 1, 1, 0x100, 0x300, 0x10000] []

/-- The first failing direct check of R220, clause by clause, with the checks before it passing (V55). -/
theorem witness_encode_direct :
    (ready [0, 1, 1] []).u32 0 = 0 ∧
      (1 ≤ (ready [4, 33, 1] []).u32 0 ∧ ¬(1 ≤ (ready [4, 33, 1] []).u32 1 ∧ (ready [4, 33, 1] []).u32 1 ≤ 32)) ∧
      (DotpCounts (ready [4, 1, 65] []) ∧ ¬EncodeCounts (ready [4, 1, 65] [])) ∧
      (EncodeCounts encodeBad3 ∧ ¬(encodeTbl encodeBad3).Inside encodeBad3.cfg) ∧
      (EncodeCounts encodeBad4 ∧ (encodeTbl encodeBad4).Inside encodeBad4.cfg ∧
        ¬(encodeSrcv encodeBad4).Inside encodeBad4.cfg) ∧
      EncodeCounts encodeBad5 ∧ (encodeTbl encodeBad5).Inside encodeBad5.cfg ∧
        (encodeSrcv encodeBad5).Inside encodeBad5.cfg ∧ ¬(encodeDestv encodeBad5).Inside encodeBad5.cfg := by decide

def encodeBadSource : State := encodeState [4, 1, 1, 0x100, 0x300, 0x310] [0xFE, 0xFF, 0, 0] [0, 4, 0, 0]

def encodeBadDest : State := encodeState [4, 1, 1, 0x100, 0x300, 0x310] [0, 2, 0, 0] [0xFD, 0xFF, 0, 0]

def encodeInPlace : State := encodeState [4, 1, 1, 0x100, 0x300, 0x310] [0, 2, 0, 0] [0, 2, 0, 0]

theorem witness_encode_source_pointer :
    EncodeDirect encodeBadSource ∧ ¬(encodeInput encodeBadSource 0).Inside encodeBadSource.cfg :=
  ⟨by unfold EncodeDirect; decide, by decide +kernel⟩

theorem witness_encode_dest_pointer :
    EncodeDirect encodeBadDest ∧ (∀ i < encodeBadDest.u32 1, (encodeInput encodeBadDest i).Inside encodeBadDest.cfg) ∧
      ¬(encodeOutput encodeBadDest 0).Inside encodeBadDest.cfg :=
  ⟨by unfold EncodeDirect; decide, by decide +kernel, by decide +kernel⟩

theorem witness_encode_overlap :
    EncodeDirect encodeInPlace ∧ (∀ i < encodeInPlace.u32 1, (encodeInput encodeInPlace i).Inside encodeInPlace.cfg) ∧
      (∀ j < encodeInPlace.u32 2, (encodeOutput encodeInPlace j).Inside encodeInPlace.cfg) ∧ ¬EncodeApart encodeInPlace :=
  ⟨by unfold EncodeDirect; decide, by decide +kernel, by decide +kernel,
    fun h => (h 0 (by decide)).2.2.2.1 0 (by decide) 0x200 (by decide +kernel) (by decide +kernel)⟩

theorem witness_encode_expanded_table : ∀ j < encodeGood.u32 2, ∀ i < encodeGood.u32 1, ∀ n < 32,
    encodeGood.readByte (encodeGood.addr 3 + 32 * (j * encodeGood.u32 1 + i) + n) =
      (tableEntry (BitVec.ofNat 8 (i + 2))).getD n 0#8 := by decide +kernel

/-- The same lane, with both buffers elsewhere. -/
def encodeMoved : State :=
  ready [1, 2, 1, 0x100, 0x300, 0x310]
    (cellsAt 0x100 (tableEntry 2#8 ++ tableEntry 3#8) ++ cellsAt 0x204 (bytes [7, 0x80]) ++
      cellsAt 0x300 (bytes [5, 2, 0, 0, 4, 2, 0, 0]) ++ cellsAt 0x310 (bytes [8, 4, 0, 0]))

theorem witness_encode_same_lane :
    (∀ n < 32 * encodeGood.u32 1, encodeGood.readByte (encodeGood.addr 3 + 32 * (0 * encodeGood.u32 1) + n) =
      encodeMoved.readByte (encodeMoved.addr 3 + 32 * (0 * encodeMoved.u32 1) + n)) ∧
      (∀ i < encodeGood.u32 1, encodeGood.readByte ((encodeInput encodeGood i).base + 0) =
        encodeMoved.readByte ((encodeInput encodeMoved i).base + 0)) ∧
      (∃ t, exec .encode encodeGood = .next t) ∧ ∃ t, exec .encode encodeMoved = .next t :=
  ⟨by decide +kernel, by decide +kernel, ⟨_, rfl⟩, ⟨_, rfl⟩⟩

theorem encodeMoved_order : ∀ j < 1,
    (∀ q ∈ [(Region.mk 0x100 64), ⟨0x300, 8⟩, ⟨0x310, 4⟩], (encodeOutput encodeMoved j).base + 1 ≤ q.base ∨
      q.base + q.size ≤ (encodeOutput encodeMoved j).base) ∧
      ∀ i < 2, (encodeOutput encodeMoved j).base + 1 ≤ (encodeInput encodeMoved i).base ∨
        (encodeInput encodeMoved i).base + 1 ≤ (encodeOutput encodeMoved j).base := by decide +kernel

theorem witness_encode_moved_runs : EncodeRuns encodeMoved :=
  ⟨by unfold EncodeDirect; decide, by decide +kernel, by decide +kernel, fun j hj =>
    have h := encodeMoved_order j hj
    ⟨apart_of_order (h.1 ⟨0x100, 64⟩ (by decide)), apart_of_order (h.1 ⟨0x300, 8⟩ (by decide)),
      apart_of_order (h.1 ⟨0x310, 4⟩ (by decide)), fun i hi => apart_of_order (h.2 i hi), fun j' hj' hne =>
        absurd (show j' < 1 from hj') (by have : j < 1 := hj; omega)⟩⟩

/-! ## Witnesses of the other statements -/

/-- FieldLawsHoldForAllBytes, InverseIsTheUniqueByteWithProductOne, PowersOfTwoAreTheNonzeroBytes. -/
theorem witness_nonzero_byte : 0x53#8 ≠ 0#8 ∧ gmul 0x53#8 0x8C#8 = 1#8 := by decide

/-- GfDiv..., GfInv...: an operand that is not 0, and one that is although its register is not. -/
theorem witness_scalar_operands :
    ((ready [5, 7] []).commandArgs.get 1).setWidth 8 ≠ 0#8 ∧
      ((ready [5, 0x100] []).commandArgs.get 1).setWidth 8 = 0#8 ∧
      ((ready [5, 7] []).commandArgs.get 0).setWidth 8 ≠ 0#8 ∧
      ((ready [0x100, 7] []).commandArgs.get 0).setWidth 8 = 0#8 := by decide

/-- A started GF_MUL with the completion step next, and one with two host accesses to come. -/
def mulNow : State := running 0x01#32 0 (ready [2, 3] [])

def mulLater : State :=
  { running 0x01#32 2 (ready [2, 3] []) with inputs := [⟨0, 0, .memRead 5⟩, ⟨0, 1, .poll⟩] }

/-- StepRunsTheDecodedCommand, ResultChangesOnlyByScalarSuccessOrReset, NoStepChangesTheParameters. -/
theorem witness_step_runs : mulNow.engine = .busy ⟨0x01#32, mulNow.args⟩ 0 ∧
    decode (0x01#32 : Word) = .ok .gfMul ∧ ∃ t, step mulNow = .next t := ⟨rfl, rfl, ⟨_, rfl⟩⟩

/-- StepRunsTheDecodedCommand, its other premise: delay left, and nothing but held accesses. -/
theorem witness_step_runs_early :
    ({ mulLater with inputs := [⟨0, 0, .memRead 5⟩] } : State).engine = .busy ⟨0x01#32, mulLater.args⟩ 2 ∧
      takeUnheld [(⟨0, 0, .memRead 5⟩ : Request)] = none := ⟨rfl, rfl⟩

/-- IllegalWordCompletesWithIllegalCmd, both clauses. -/
theorem witness_illegal_word :
    ((running 0x101#32 0 State.reset).engine = .busy ⟨0x101#32, State.reset.args⟩ 0 ∧
        (0x101#32 : Word).toNat ∉ [0x01, 0x02, 0x03, 0x10, 0x20, 0x30, 0x40, 0x41]) ∧
      State.reset.cmd.toNat ∉ [0x01, 0x02, 0x03, 0x10, 0x20, 0x30, 0x40, 0x41] ∧ State.reset.busy = false ∧
        State.reset.cfg.hostBusOrdered = true ∧ (1#32 : Word)[1] = false ∧ (1#32 : Word)[0] = true ∧
        (request (.regWrite 4 0x0C 1#32)).access = .regWrite 4 0x0C 1#32 :=
  ⟨⟨rfl, by decide⟩, by decide, rfl, rfl, rfl, rfl, rfl⟩

/-- StepPerformsTheNextAccess: each of its three cases. -/
theorem witness_next_access : State.reset.engine = .idle ∧ State.reset.inputs = [] ∧
    mulLater.engine = .busy ⟨0x01#32, mulLater.args⟩ (1 + 1) ∧
      takeUnheld mulLater.inputs = some (⟨0, 1, .poll⟩, [⟨0, 0, .memRead 5⟩]) := ⟨rfl, rfl, rfl, rfl⟩

/-- MnemonicRunsItsCommand. -/
theorem witness_mnemonic : State.reset.engine = .idle ∧ State.reset.inputs = [] ∧
    State.reset.cfg.hostBusOrdered = true ∧ [2#32, 3#32].length = arity .gfMul := ⟨rfl, rfl, rfl, rfl⟩

/-- FailedCommandLeavesMemoryAndResult, CommandsReportOnlyTheirOwnErrors. -/
theorem witness_failed_command : ∃ t, exec .gfInv (ready [0] []) = .next t ∧ t.err ≠ .ok := ⟨_, rfl, by decide⟩

/-- EngineWritesStayInsideMemory. -/
theorem witness_command_rule : ∃ e, commandRule .expand expandAtEnd = .ok e ∧ e.stores ≠ [] :=
  ⟨_, rfl, by decide +kernel⟩

/-- CompletionChangesNothingElse: a rule that ends with an error, and one that leaves an address alone. -/
theorem witness_completion_frame : (∃ e, commandRule .gfInv (ready [0] []) = .error e) ∧
    ∃ e, commandRule .expand expandOne = .ok e ∧ ∀ c ∈ e.stores, c.1 ≠ 0x10 :=
  ⟨⟨_, rfl⟩, ⟨_, rfl, by decide +kernel⟩⟩

/-- CtrlWriteResetsOrStartsOrEnables: the bits of each clause (V63). -/
theorem witness_ctrl_bits : (0x6#32 : Word)[1] = true ∧ ((0x4#32 : Word)[1] = false ∧ (0x4#32 : Word)[0] = false) ∧
    ((0x5#32 : Word)[1] = false ∧ (0x5#32 : Word)[0] = true) ∧ mulLater.busy = true ∧ State.reset.busy = false ∧
      (request (.regWrite 4 0x0C 0x5#32)).access = .regWrite 4 0x0C 0x5#32 ∧
        State.reset.cfg.hostBusOrdered = true ∧ mulLater.cfg.hostBusOrdered = true := by decide

/-- StartOnAReorderingBusNeedsFinishedWrites: a write in flight, and none. -/
def reordering : State := { State.reset with cfg := { Config.default with hostBusOrdered := false } }

theorem witness_reordering : reordering.cfg.hostBusOrdered = false ∧ reordering.busy = false ∧
    (∃ q ∈ [(⟨0, 3, .memWrite 5 1#8⟩ : Request)], q.agent = (request .poll).agent ∧ q.seq < (request .poll).seq ∧
      ∃ a b, q.access = .memWrite a b) ∧
      ∀ q ∈ [(⟨0, 8, .memWrite 5 1#8⟩ : Request)], q.agent = (request .poll).agent → q.seq < (request .poll).seq →
        ∀ a b, q.access ≠ .memWrite a b :=
  ⟨rfl, rfl, ⟨_, List.mem_cons_self, rfl, by decide, 5, 1#8, rfl⟩, fun q hq _ hlt => by
    simp only [List.mem_singleton] at hq
    subst hq
    exact absurd hlt (by decide)⟩

/-- RegisterAccessesWhileBusy (its CTRL clauses: witness_ctrl_bits), StatusWriteClearsOnlyDoneAndOverrun,
ReadOnlyAndReservedRegistersIgnoreWrites. -/
theorem witness_register_writes : mulLater.busy = true ∧
    (request (.regWrite 4 0x14 1#32)).access = .regWrite 4 0x14 1#32 ∧
      (request (.regWrite 4 0x40 1#32)).access = .regWrite 4 (0x20 + 4 * 8) 1#32 ∧
      (request (.regWrite 4 0x10 2#32)).access = .regWrite 4 0x10 2#32 ∧
      (request (.regWrite 4 0xFC 2#32)).access = .regWrite 4 0xFC 2#32 ∧
      (request (.regWrite 4 0x44 2#32)).access = .regWrite 4 0x44 2#32 ∧
      (request (.regRead 4 0xFC)).access = .regRead 4 0xFC ∧
      (request (.regRead 4 0x40)).access = .regRead 4 (0x20 + 4 * (8 : Fin 9).val) ∧
      (request (.regRead 4 0x1C)).access = .regRead 4 0x1C := by decide

/-- RegisterAccessesWhileBusy: its clause about ERR_INFO. -/
theorem witness_latch_coherent : mulLater.busy = true ∧ mulLater.LatchCoherent :=
  ⟨rfl, fun _ _ h => by cases h; exact ⟨rfl, rfl, rfl, rfl, rfl⟩⟩

/-- StatusWriteClearsOnlyDoneAndOverrun: a POLL that reads BUSY, and one that does not; HardResetDrawsTheMemoryAnew. -/
theorem witness_poll : (request .poll).access = .poll ∧ (mulLater.readReg .status)[0] = true ∧
    (State.reset.readReg .status)[0] = false ∧ (request .hardReset).access = .hardReset := by decide

/-- CommandRegistersStoreAndReadBack: idle, CMD, and the last argument register. -/
theorem witness_command_registers : State.reset.busy = false ∧
    (request (.regWrite 4 0x40 5#32)).access = .regWrite 4 (0x20 + 4 * (8 : Fin 9).val) 5#32 := by decide

/-- RegisterAccessesAreAlignedWordsAndReadsAreSilent: the last legal offset, and each illegal form. -/
theorem witness_register_access : (4 = 4 ∧ 0xFC % 4 = 0 ∧ 0xFC < 0x100) ∧ ¬(2 = 4 ∧ 0x10 % 4 = 0 ∧ 0x10 < 0x100) ∧
    ¬(4 = 4 ∧ 0x11 % 4 = 0 ∧ 0x11 < 0x100) ∧ ¬(4 = 4 ∧ 0x100 % 4 = 0 ∧ 0x100 < 0x100) := by decide

/-- MemoryPortWritesOneByteAndReadsItBack: the last address; UndutifulAccessStopsTheMachine: the first beyond it. -/
theorem witness_memory_port : 0xFFFF < State.reset.cfg.memBytes ∧ State.reset.cfg.memBytes ≤ 0x10000 ∧
    (request (.memWrite 0xFFFF 1#8)).access = .memWrite 0xFFFF 1#8 ∧
      ({ State.reset with inputs := [request (.memRead 0x10000)] } : State).engine = .idle := by decide

/-- MemoryAccessesAreHeldWhileBusy: a held access stays while a poll is answered. -/
theorem witness_held : mulLater.engine = .busy ⟨0x01#32, mulLater.args⟩ 2 ∧ (∃ t, step mulLater = .next t) ∧
    (request (.memRead 5)).access.held = true := ⟨rfl, ⟨_, rfl⟩, rfl⟩

/-- SoftResetWhileBusyAbortsTheCommand: a command that would have succeeded, with an address it does not store to, and
one that would have failed. -/
theorem witness_abort :
    (running 0x10#32 3 expandOne).engine = .busy ⟨0x10#32, expandOne.args⟩ 3 ∧
      (∃ e, wordRule 0x10#32 (running 0x10#32 3 expandOne) = .ok e ∧ ∀ c ∈ e.stores, c.1 ≠ 0x10) ∧
      ∃ e, wordRule 0x03#32 (running 0x03#32 3 (ready [0] [])) = .error e :=
  ⟨rfl, ⟨_, rfl, by decide +kernel⟩, ⟨_, rfl⟩⟩

/-- ResetLeavesTheListedValues: its premises. -/
theorem witness_reset : Config.default.Legal ∧ State.reset.engine = .idle := ⟨by decide, rfl⟩

/-- EveryStepKeepsTheMachineInvariant: a busy state with a byte of memory. -/
theorem witness_invariant : (running 0x10#32 0 expandOne).Inv ∧ ∃ t, step (running 0x10#32 0 expandOne) = .next t :=
  ⟨⟨by decide, by decide, by decide, fun l wait h => by cases h; exact ⟨rfl, rfl, rfl, rfl, rfl⟩, rfl, fun _ => rfl⟩,
    ⟨_, rfl⟩⟩

/-- BusyEngineReachesIdle, DutifulHostNeverStopsTheMachine. -/
theorem witness_dutiful : mulLater.Dutiful ∧ mulLater.engine = .busy ⟨0x01#32, mulLater.args⟩ 2 ∧
    mulLater.cfg.hostBusOrdered = true := by
  refine ⟨fun r hr => ?_, rfl, rfl⟩
  simp only [mulLater, List.mem_cons, List.not_mem_nil, or_false] at hr
  rcases hr with rfl | rfl
  · show (5 : Nat) < 65536
    decide
  · trivial

/-- UndutifulAccessStopsTheMachine: each illegal form at the head of an idle machine's queue. -/
theorem witness_undutiful :
    ({ State.reset with inputs := [request (.regRead 2 0x10)] } : State).inputs = [request (.regRead 2 0x10)] ∧
      (2 : Nat) ≠ 4 ∧ 0x12 % 4 ≠ 0 ∧ (0x100 % 4 = 0 ∧ 0x100 ≤ 0x100) := by decide

/-! ## Ports and schedule (V60, V62, V63, P5) -/

theorem test_reset_registers :
    State.reset.readReg (regAt 0x00) = 0x47463238#32 ∧ State.reset.readReg (regAt 0x04) = 0x00400020#32 ∧
      State.reset.readReg (regAt 0x08) = 0x00010000#32 ∧ State.reset.readReg (regAt 0x80) = 0#32 := by decide

theorem test_status_while_busy : mulNow.readReg .status = 0x01#32 ∧
    ({ mulNow with overrun := true } : State).readReg .status = 0x05#32 := by decide

theorem test_soft_reset_beats_irq_enable :
    (after (perform (request (.regWrite 4 0x0C 0x6#32)) [] State.reset)).readReg .ctrl = 0#32 := by decide

/-- V63: writing 4 to CTRL while idle enables the interrupt and starts nothing; writing 5 starts too, CTRL reading 4. -/
theorem test_ctrl_reads_irq_enable :
    (after (perform (request (.regWrite 4 0x0C 0x4#32)) [] State.reset)).readReg .ctrl = 0x4#32 ∧
      (after (perform (request (.regWrite 4 0x0C 0x5#32)) [] State.reset)).readReg .ctrl = 0x4#32 := by decide

/-- V10, P1: RESULT and ERR_INFO read through the port at 0x18 and 0x1C. -/
theorem test_read_result_and_errInfo :
    (after (perform (request (.regRead 4 0x18)) [] (after (exec .gfMul (ready [0x53, 0xCA] []))))).replies =
        [⟨0, 7, .word 0x8F#32⟩] ∧
      (after (perform (request (.regRead 4 0x1C)) [] (after (exec .gfDiv (ready [1, 0] []))))).replies =
        [⟨0, 7, .word 0x120#32⟩] := by decide +kernel

theorem test_start_while_busy_overruns :
    (after (perform (request (.regWrite 4 0x0C 0x1#32)) [] mulLater)).readReg .status = 0x05#32 := by decide

theorem test_acknowledge_keeps_err :
    (after (perform (request (.regWrite 4 0x10 0x2#32)) [] (after (exec .gfInv (ready [0] []))))).readReg .status =
      0x10#32 := by decide

theorem test_word_bytes_little_endian : wordBytes 0x04030201#32 = bytes [1, 2, 3, 4] := by decide

end Sys2Proof.Tests
end

section
/-! PROOFS. Regions (R15): the overlap test as a shared address. -/

namespace Sys2Proof.Machine

/-- The overlap test in arithmetic: both regions hold an address, and each begins before the other ends. -/
theorem overlaps_iff_lt (r q : Region) : r.overlaps q = true ↔
    (r.size ≠ 0 ∧ q.size ≠ 0) ∧ r.base < q.base + q.size ∧ q.base < r.base + r.size := by
  simp [Region.overlaps, and_assoc]

/-- R15. Of two regions that overlap, the later base is an address of both. -/
theorem overlaps_iff_exists_has (r q : Region) : r.overlaps q = true ↔ ∃ a, r.Has a ∧ q.Has a := by
  rw [overlaps_iff_lt]
  constructor
  · rintro ⟨⟨hr, hq⟩, hrq, hqr⟩
    refine ⟨max r.base q.base, ⟨le_max_left _ _, ?_⟩, le_max_right _ _, ?_⟩
    · exact max_lt (by omega) hqr
    · exact max_lt hrq (by omega)
  · rintro ⟨a, ⟨hra, har⟩, hqa, haq⟩
    exact ⟨by omega, by omega, by omega⟩

/-- Settles O39: overlap is a shared address, the later base being one, and the in-range test is its definition. -/
theorem regionsOverlapExactlyWhenTheyShareAnAddress :
    Obligations.RegionsOverlapExactlyWhenTheyShareAnAddress :=
  fun r q cfg => ⟨overlaps_iff_exists_has r q, inRange_iff r cfg⟩

end Sys2Proof.Machine
end

section
/-! PROOFS. The register port (R32 to R47): what a register-port access does, which register stands at an offset, and
the fields of the words the host reads. -/

namespace Sys2Proof.Machine

/-! ## The words of the window -/

/-- CTRL bit 2 is IRQ_EN (R36). -/
@[simp] theorem ctrlWord_irqEn (s : State) : s.ctrlWord[2] = s.irqEn := by
  unfold State.ctrlWord
  cases s.irqEn <;> rfl

theorem noError_word : noError.word = 0#32 := rfl

/-- ERR_INFO bits [7:0] are the number of the cause (R40). -/
theorem errInfo_word_cause (e : ErrInfo) : e.word.extractLsb' 0 8 = e.cause.code := by
  apply BitVec.eq_of_toNat_eq
  rw [BitVec.extractLsb'_toNat, errInfo_word_toNat, Nat.shiftRight_zero, Nat.add_mul_mod_self_left,
    Nat.mod_eq_of_lt e.cause.code.isLt]

/-- ERR_INFO bits [31:8] are INDEX, a 16-bit number (R40). -/
theorem errInfo_word_shiftRight (e : ErrInfo) : e.word.toNat >>> 8 = e.index.toNat := by
  rw [errInfo_word_toNat, Nat.shiftRight_eq_div_pow, Nat.add_mul_div_left _ _ (by decide),
    Nat.div_eq_of_lt e.cause.code.isLt, Nat.zero_add]

/-- ERR_INFO bits [23:8] are INDEX (R40). -/
theorem errInfo_word_index (e : ErrInfo) : e.word.extractLsb' 8 16 = e.index := by
  apply BitVec.eq_of_toNat_eq
  rw [BitVec.extractLsb'_toNat, errInfo_word_shiftRight, Nat.mod_eq_of_lt e.index.isLt]

/-- ERR_INFO bits [31:24] are reserved and read 0 (R40). -/
theorem errInfo_word_reserved (e : ErrInfo) : e.word.extractLsb' 24 8 = 0#8 := by
  apply BitVec.eq_of_toNat_eq
  rw [BitVec.extractLsb'_toNat, show 24 = 8 + 16 from rfl, Nat.shiftRight_add, errInfo_word_shiftRight,
    Nat.shiftRight_eq_div_pow, Nat.div_eq_of_lt e.index.isLt]
  rfl

/-- Legal parameters fit in their fields of PARAMS (R9, R34). -/
theorem paramsWord_toNat {cfg : Config} (h : cfg.Legal) :
    (paramsWord cfg).toNat = cfg.kMax + cfg.mMax * 2 ^ 16 := by
  obtain ⟨-, hkm, hm, -, -⟩ := h
  have hshift : cfg.mMax <<< 16 < 2 ^ 32 := by rw [Nat.shiftLeft_eq]; omega
  simp only [paramsWord, BitVec.toNat_or, BitVec.toNat_shiftLeft, BitVec.toNat_setWidth, BitVec.toNat_ofNat]
  rw [Nat.mod_eq_of_lt (show cfg.kMax < 2 ^ 9 by omega), Nat.mod_eq_of_lt (show cfg.mMax < 2 ^ 9 by omega),
    Nat.mod_eq_of_lt (show cfg.kMax < 2 ^ 32 by omega), Nat.mod_eq_of_lt (show cfg.mMax < 2 ^ 32 by omega),
    Nat.mod_eq_of_lt hshift, Nat.or_comm, ← Nat.shiftLeft_add_eq_or_of_lt (show cfg.kMax < 2 ^ 16 by omega),
    Nat.shiftLeft_eq, Nat.add_comm]

/-! ## The offsets of the window -/

/-- ARGi stands at offset 0x20 + 4i (R32, R41). -/
theorem regAt_arg (i : Fin 9) : regAt (0x20 + 4 * i.val) = .arg i := by
  revert i
  decide

/-- From 0x44 on the window is reserved (R42). -/
theorem regAt_reserved {off : Nat} (h : 0x44 ≤ off) : regAt off = .reserved := by
  unfold regAt
  split
  case h_18 => rfl
  all_goals omega

/-! ## Register-port accesses -/

section
variable {s : State} {r : Request} {rest : List Request} {size off : Nat} {v : Word}

/-- A register read goes through the port check, and its reply is the register's word (R43). -/
theorem perform_regRead (h : r.access = .regRead size off) :
    perform r rest s = onRegisterPort size off fun reg =>
      .next (({ s with inputs := rest } : State).reply r (.word (s.readReg reg))) := by
  simp only [perform, h]

/-- A register write goes through the port check, and then acts on the register (R43). -/
theorem perform_regWrite (h : r.access = .regWrite size off v) :
    perform r rest s = onRegisterPort size off fun reg =>
      ({ s with inputs := rest } : State).writeReg r.agent r.seq reg v := by
  simp only [perform, h]

/-- A legal register read is answered, and nothing else happens (R43). -/
theorem perform_regRead_legal (h : r.access = .regRead size off) (hl : registerAccessLegal size off) :
    perform r rest s = .next { s with
      inputs := rest, replies := ⟨r.agent, r.seq, .word (s.readReg (regAt off))⟩ :: s.replies } := by
  rw [perform_regRead h, onRegisterPort_legal hl]
  rfl

/-- A legal register write acts on the register at its offset (R43). -/
theorem perform_regWrite_legal (h : r.access = .regWrite size off v) (hl : registerAccessLegal size off) :
    perform r rest s = ({ s with inputs := rest } : State).writeReg r.agent r.seq (regAt off) v := by
  rw [perform_regWrite h, onRegisterPort_legal hl]

/-- A register access with a next state is a legal one (R43). -/
theorem registerAccessLegal_of_perform {t : State}
    (h : r.access = .regRead size off ∨ r.access = .regWrite size off v) (ht : perform r rest s = .next t) :
    registerAccessLegal size off := by
  rcases h with h | h
  · rw [perform_regRead h] at ht
    exact (onRegisterPort_next ht).1
  · rw [perform_regWrite h] at ht
    exact (onRegisterPort_next ht).1

end

/-! ## Register writes -/

section
variable {s : State} {v : Word}

/-- A write to a read-only or reserved register is ignored (R33, R34, R35, R39, R40, R42). -/
theorem writeReg_ignored (agent seq : Nat) {reg : Reg}
    (h : reg ∈ [Reg.id, .params, .memsize, .result, .errInfo, .reserved]) :
    s.writeReg agent seq reg v = .next s := by
  cases reg with
  | id | params | memsize | result | errInfo | reserved => rfl
  | ctrl | status | cmd | arg i => simp at h

/-- A CMD write while BUSY is ignored (R44). -/
theorem writeCmd_busy (h : s.busy = true) : s.writeCmd v = s := by simp [State.writeCmd, h]

/-- An ARGi write while BUSY is ignored (R44). -/
theorem writeArg_busy (h : s.busy = true) (i : Fin 9) : s.writeArg i v = s := by simp [State.writeArg, h]

/-- A CTRL write with SRESET is the soft reset (R277). -/
theorem writeCtrl_sreset (agent seq : Nat) (h1 : v[1] = true) :
    s.writeCtrl agent seq v = .next s.softReset := by simp [State.writeCtrl, h1]

/-- A CTRL write with START while BUSY writes IRQ_EN and sets OVERRUN (R44, R277). -/
theorem writeCtrl_start_busy (agent seq : Nat) (h1 : v[1] = false) (h0 : v[0] = true) (hb : s.busy = true) :
    s.writeCtrl agent seq v = .next { s with irqEn := v[2], overrun := true } := by
  have hb' : ({ s with irqEn := v[2] } : State).busy = true := hb
  simp [State.writeCtrl, h1, h0, State.start, hb']

/-- A CTRL write with neither SRESET nor START writes IRQ_EN (R36, R277). -/
theorem writeCtrl_enable (agent seq : Nat) (h1 : v[1] = false) (h0 : v[0] = false) :
    s.writeCtrl agent seq v = .next { s with irqEn := v[2] } := by simp [State.writeCtrl, h1, h0]

/-- While BUSY with a coherent latch ERR_INFO reads 0: the START cleared it (R40, R277). -/
theorem readReg_errInfo_busy (hb : s.busy = true) (hl : s.LatchCoherent) : s.readReg .errInfo = 0#32 := by
  obtain ⟨l, wait, he⟩ := (busy_iff s).1 hb
  obtain ⟨-, -, -, -, hinfo⟩ := hl l wait he
  simp only [State.readReg, hinfo, noError_word]

end

/-! ## The statements -/

/-- Settles O43: each write clause is the effect of a legal register write on the register at its offset. -/
theorem registerAccessesWhileBusy : Obligations.RegisterAccessesWhileBusy := by
  intro s r rest off v hb s'
  have hb' : s'.busy = true := hb
  refine ⟨fun hw => ?_, fun hr h4 hlt => perform_regRead_legal hr ⟨rfl, h4, hlt⟩, readReg_errInfo_busy hb⟩
  have hact (hl : registerAccessLegal 4 off) :
      perform r rest s = s'.writeReg r.agent r.seq (regAt off) v := perform_regWrite_legal hw hl
  refine ⟨?cmd, ?arg, ?sreset, ?start, ?enable, ?status⟩
  case cmd =>
    rintro rfl
    exact (hact (by decide)).trans (congrArg _ (writeCmd_busy hb'))
  case arg =>
    rintro i hi rfl
    rw [hact ⟨rfl, by omega, by omega⟩, regAt_arg ⟨i, hi⟩]
    exact congrArg _ (writeArg_busy hb' ⟨i, hi⟩)
  case sreset =>
    rintro rfl h1
    exact (hact (by decide)).trans (writeCtrl_sreset _ _ h1)
  case start =>
    rintro rfl h1 h0
    exact (hact (by decide)).trans (writeCtrl_start_busy _ _ h1 h0 hb')
  case enable =>
    rintro rfl h1 h0
    exact (hact (by decide)).trans (writeCtrl_enable _ _ h1 h0)
  case status =>
    rintro rfl
    exact hact (by decide)

/-- Settles O46: a legal read only adds its reply, and an access with a next state is a legal one. -/
theorem registerAccessesAreAlignedWordsAndReadsAreSilent :
    Obligations.RegisterAccessesAreAlignedWordsAndReadsAreSilent := by
  intro s r rest size off
  refine ⟨fun hr hs h4 hlt => ⟨_, perform_regRead_legal hr ⟨hs, h4, hlt⟩, rfl⟩, fun v hacc hill t ht => ?_⟩
  exact hill (registerAccessLegal_of_perform hacc ht)

/-- Settles O47: the register at each offset, what it reads, and that the read-only ones ignore a write. -/
theorem readOnlyAndReservedRegistersIgnoreWrites :
    Obligations.ReadOnlyAndReservedRegistersIgnoreWrites := by
  intro s r rest off info reserved
  refine ⟨fun w hr hw => ?reads, paramsWord_toNat, ⟨?cause, errInfo_word_index _, errInfo_word_reserved _⟩,
    fun v hv hoff => ?writes⟩
  case reads =>
    have hreg : registerAccessLegal 4 off ∧ s.readReg (regAt off) = w := by
      rcases hw with hw | ⟨i, rfl, rfl⟩ | ⟨⟨hlo, hhi, h4⟩, rfl⟩
      · simp only [List.mem_cons, List.not_mem_nil, or_false, Prod.mk.injEq] at hw
        rcases hw with ⟨rfl, rfl⟩ | ⟨rfl, rfl⟩ | ⟨rfl, rfl⟩ | ⟨rfl, rfl⟩ | ⟨rfl, rfl⟩ | ⟨rfl, rfl⟩ |
            ⟨rfl, rfl⟩ | ⟨rfl, rfl⟩ <;>
          exact ⟨by decide, rfl⟩
      · exact ⟨⟨rfl, by omega, by omega⟩, by rw [regAt_arg]; rfl⟩
      · exact ⟨⟨rfl, h4, by omega⟩, by rw [regAt_reserved hlo]; rfl⟩
    obtain ⟨hl, rfl⟩ := hreg
    exact perform_regRead_legal hr hl
  case cause =>
    rw [show info.extractLsb' 0 8 = s.errInfo.cause.code from errInfo_word_cause _]
    cases s.errInfo.cause <;> decide
  case writes =>
    have hreg : registerAccessLegal 4 off ∧
        regAt off ∈ [Reg.id, .params, .memsize, .result, .errInfo, .reserved] := by
      rcases hoff with hoff | ⟨hlo, hhi, h4⟩
      · simp only [List.mem_cons, List.not_mem_nil, or_false] at hoff
        rcases hoff with rfl | rfl | rfl | rfl | rfl <;> decide
      · exact ⟨⟨rfl, h4, by omega⟩, by rw [regAt_reserved hlo]; decide⟩
    obtain ⟨hl, hreg⟩ := hreg
    exact (perform_regWrite_legal hv hl).trans (writeReg_ignored _ _ hreg)

/-- Settles O48: STATUS bit 1 reads DONE, CTRL bit 2 reads IRQ_EN, and both are 0 at reset. -/
theorem interruptIsDoneAndEnable : Obligations.InterruptIsDoneAndEnable := by
  refine ⟨fun s => ?_, rfl⟩
  simp only [State.irq, State.readReg, statusWord_done, ctrlWord_irqEn]

end Sys2Proof.Machine
end

section
/-! PROOFS. The CMD word (R100 to R102): it is its two fields, decode and encode are inverse to each other, and an
illegal word is accepted by START and completes with ILLEGAL_CMD. -/

namespace Sys2Proof

/-! ## The fields of a CMD word (R100) -/

/-- A CMD word is OPCODE plus RSVD shifted by 8. -/
theorem toNat_eq_fields (w : Word) : w.toNat = (opcodeField w).toNat + 2 ^ 8 * (rsvdField w).toNat := by
  have hw : w.toNat < 2 ^ 32 := w.isLt
  simp only [opcodeField, rsvdField, BitVec.extractLsb'_toNat, Nat.shiftRight_eq_div_pow]
  omega

/-- Two CMD words with the same fields are the same word. -/
theorem word_ext {w v : Word} (hr : rsvdField w = rsvdField v) (ho : opcodeField w = opcodeField v) : w = v := by
  apply BitVec.eq_of_toNat_eq
  rw [toNat_eq_fields w, toNat_eq_fields v, hr, ho]

/-! ## Decoding (R101) -/

@[simp] theorem rsvdField_encode (i : Instr) : rsvdField (encode i) = 0#24 := by cases i <;> rfl

@[simp] theorem decodeOpcode_opcodeField_encode (i : Instr) : decodeOpcode (opcodeField (encode i)) = some i := by
  cases i <;> rfl

/-- An OPCODE that selects a command is the OPCODE of its word. -/
theorem eq_opcodeField_of_decodeOpcode {op : Byte} {i : Instr} (h : decodeOpcode op = some i) :
    op = opcodeField (encode i) := by
  unfold decodeOpcode at h
  split_ifs at h <;> cases h <;> assumption

/-- The decoder answers a command when RSVD is 0 and OPCODE selects it. -/
theorem decode_eq_ok_iff_fields (w : Word) (i : Instr) :
    decode w = .ok i ↔ rsvdField w = 0#24 ∧ decodeOpcode (opcodeField w) = some i := by
  by_cases hr : rsvdField w = 0#24 <;> cases ho : decodeOpcode (opcodeField w) <;> simp [decode, hr, ho]

/-- The words that decode to a command are its encoding alone (R101). -/
theorem decode_eq_ok_iff (w : Word) (i : Instr) : decode w = .ok i ↔ w = encode i := by
  rw [decode_eq_ok_iff_fields]
  constructor
  · rintro ⟨hr, ho⟩
    exact word_ext (hr.trans (rsvdField_encode i).symm) (eq_opcodeField_of_decodeOpcode ho)
  · rintro rfl
    exact ⟨rsvdField_encode i, decodeOpcode_opcodeField_encode i⟩

/-! ## The opcode map (R101) -/

/-- The columns "CMD word" and "mnemonic" of R101. -/
def opcodeMap : List (Nat × Instr) :=
  [(0x01, .gfMul), (0x02, .gfDiv), (0x03, .gfInv), (0x10, .expand), (0x20, .invert), (0x30, .derive), (0x40, .dotp),
    (0x41, .encode)]

/-- Each command stands in the map once, beside the number of its CMD word. -/
theorem mem_opcodeMap_iff (n : Nat) (i : Instr) : (n, i) ∈ opcodeMap ↔ n = (encode i).toNat := by
  cases i <;> simp [opcodeMap, encode]

/-- A word whose number is not in the map is illegal (R102). -/
theorem exists_decode_eq_error {w : Word} (h : w.toNat ∉ opcodeMap.map Prod.fst) : ∃ e, decode w = .error e := by
  cases hd : decode w with
  | error e => exact ⟨e, rfl⟩
  | ok i =>
    have hmem : (w.toNat, i) ∈ opcodeMap :=
      (mem_opcodeMap_iff _ i).2 (congrArg BitVec.toNat ((decode_eq_ok_iff w i).1 hd))
    exact absurd (List.mem_map_of_mem hmem) h

end Sys2Proof

namespace Sys2Proof.Machine

/-! ## Illegal words (R102) -/

/-- The completion step of an illegal word raises ILLEGAL_CMD (R102). -/
theorem completeLatched_illegal {l : Latched} {e : DecodeError} (s : State) (h : decode l.cmd = .error e) :
    completeLatched l s = .next (s.raise illegalCommandError) := by
  simp only [completeLatched, h]

/-- ILLEGAL_CMD reads as cause 0x30 with INDEX 0 in ERR_INFO (R40, R270). -/
theorem readReg_errInfo_illegal (s : State) : (s.raise illegalCommandError).readReg .errInfo = 0x00000030#32 := by
  show (⟨.illegalCommand, 0#16⟩ : ErrInfo).word = 0x00000030#32
  decide

/-- While IDLE on a bus that keeps program order, a CTRL write with START is accepted, whatever CMD holds (R277). -/
theorem writeCtrl_start_idle {s : State} {v : Word} (agent seq : Nat) (h1 : v[1] = false) (h0 : v[0] = true)
    (hb : s.busy = false) (ho : s.cfg.hostBusOrdered = true) :
    s.writeCtrl agent seq v =
      .next (({ s with irqEn := v[2] } : State).drawDelay.acceptStart s.nextDelay) := by
  have hb' : ({ s with irqEn := v[2] } : State).busy = false := hb
  simp [State.writeCtrl, h1, h0, State.start, hb', ho, State.nextDelay]

/-! ## The statements -/

/-- Settles O7: a word is its two fields, and each command has one OPCODE and one row of the map. -/
theorem decodeAndEncodeAgreeOnEveryWord : Obligations.DecodeAndEncodeAgreeOnEveryWord := by
  intro w i
  have hmap : w = encode i ↔ (w.toNat, i) ∈ opcodeMap := by rw [mem_opcodeMap_iff, BitVec.toNat_inj]
  exact ⟨decode_eq_ok_iff w i, (decode_eq_ok_iff w i).trans hmap⟩

/-- Settles O9: an illegal word has no rule to run, so its completion raises ILLEGAL_CMD; a START does not look at the
word it latches. -/
theorem illegalWordCompletesWithIllegalCmd : Obligations.IllegalWordCompletesWithIllegalCmd := by
  refine ⟨fun s l _ _ hill => ?completes, fun s r rest v hb ho hacc h1 h0 _ => ?accepted⟩
  case completes =>
    obtain ⟨e, he⟩ := exists_decode_eq_error hill
    exact ⟨_, completeLatched_illegal s he, rfl, readReg_errInfo_illegal s, rfl⟩
  case accepted =>
    have hb' : ({ s with inputs := rest } : State).busy = false := hb
    exact ⟨_, _, (perform_regWrite_legal hacc (by decide)).trans (writeCtrl_start_idle _ _ h1 h0 hb' ho), rfl, rfl⟩

end Sys2Proof.Machine
end

section
/-! PROOFS. Bytes as residues (R130, R131, R133): a byte is read as a polynomial over GF(2) and then as a residue modulo
0x11D. That reading is one-to-one and takes exclusive-or to addition and `gmul` to multiplication, so the ring laws of
the residues are laws of bytes. -/

namespace Sys2Proof.Machine

open Polynomial

/-! ## Bytes as polynomials over GF(2) (R130) -/

/-- The polynomial over GF(2) whose coefficients are the bits of `v`. -/
noncomputable def bitPoly {n : Nat} (v : BitVec n) : (ZMod 2)[X] :=
  ∑ i ∈ Finset.range n, if v.getLsbD i then X ^ i else 0

theorem coeff_bitPoly {n : Nat} (v : BitVec n) (i : Nat) :
    (bitPoly v).coeff i = if v.getLsbD i then 1 else 0 := by
  have hterm (j : Nat) : (if v.getLsbD j then X ^ j else 0 : (ZMod 2)[X]).coeff i =
      if i = j then (if v.getLsbD i then 1 else 0) else 0 := by
    by_cases hij : i = j
    · subst hij
      cases v.getLsbD i <;> simp
    · cases v.getLsbD j <;> simp [coeff_X_pow, hij]
  have hout (h : n ≤ i) : v.getLsbD i = false := BitVec.getLsbD_of_ge v i h
  simp only [bitPoly, finsetSum_coeff, hterm, Finset.sum_ite_eq, Finset.mem_range]
  by_cases hi : i < n
  · simp [hi]
  · simp [hi, hout (by omega)]

/-- Exclusive-or is addition (R130). -/
theorem bitPoly_xor {n : Nat} (u v : BitVec n) : bitPoly (u ^^^ v) = bitPoly u + bitPoly v := by
  ext i
  simp only [coeff_add, coeff_bitPoly, BitVec.getLsbD_xor]
  cases u.getLsbD i <;> cases v.getLsbD i <;> decide

theorem bitPoly_injective {n : Nat} : Function.Injective (bitPoly (n := n)) := by
  intro u v h
  refine BitVec.eq_of_getLsbD_eq fun i _ => ?_
  have hi : (bitPoly u).coeff i = (bitPoly v).coeff i := by rw [h]
  rw [coeff_bitPoly, coeff_bitPoly] at hi
  revert hi
  cases u.getLsbD i <;> cases v.getLsbD i <;> decide

theorem degree_bitPoly_lt {n : Nat} (v : BitVec n) : (bitPoly v).degree < n := by
  refine (degree_lt_iff_coeff_zero _ _).2 fun i hi => ?_
  simp [coeff_bitPoly, BitVec.getLsbD_of_ge v i hi]

/-- Changing the width keeps the polynomial when no set bit is lost. -/
theorem bitPoly_setWidth {n : Nat} (m : Nat) {v : BitVec n} (h : ∀ i, m ≤ i → v.getLsbD i = false) :
    bitPoly (v.setWidth m) = bitPoly v := by
  ext i
  by_cases hi : i < m
  · simp [coeff_bitPoly, hi]
  · simp [coeff_bitPoly, hi, h i (by omega)]

/-- Shifting left by one is multiplication by X when no set bit is lost. -/
theorem bitPoly_shiftLeft_one {v : BitVec 9} (h : v[8] = false) : bitPoly (v <<< 1) = X * bitPoly v := by
  ext i
  cases i with
  | zero => simp [coeff_bitPoly]
  | succ i =>
    by_cases hi : i < 8
    · simp [coeff_bitPoly, show i + 1 < 9 by omega, BitVec.getLsbD_eq_getElem (show i < 9 by omega)]
    · have hv : v.getLsbD i = false := by
        obtain rfl | hi : i = 8 ∨ 9 ≤ i := by omega
        · exact h
        · exact BitVec.getLsbD_of_ge v i hi
      simp [coeff_bitPoly, BitVec.getLsbD_shiftLeft, hv]

/-! ## Bytes as residues modulo 0x11D -/

/-- The polynomial 0x11D of R130. -/
noncomputable abbrev modulus : (ZMod 2)[X] := bitPoly 0x11D#9

theorem monic_modulus : modulus.Monic := by
  refine monic_of_natDegree_le_of_coeff_eq_one 8 (natDegree_le_of_degree_le ?_) ?_
  · exact Order.le_of_lt_succ (degree_bitPoly_lt 0x11D#9)
  · rw [coeff_bitPoly]
    decide

theorem degree_modulus : modulus.degree = 8 := by
  refine le_antisymm (Order.le_of_lt_succ (degree_bitPoly_lt 0x11D#9)) (le_degree_of_ne_zero ?_)
  rw [coeff_bitPoly]
  decide

/-- The residue of `v` modulo 0x11D. -/
noncomputable def residue {n : Nat} (v : BitVec n) : AdjoinRoot modulus := AdjoinRoot.mk modulus (bitPoly v)

/-- The residue of 0x02, the generator of R134. -/
noncomputable abbrev generator : AdjoinRoot modulus := AdjoinRoot.root modulus

theorem residue_eq_sum {n : Nat} (v : BitVec n) :
    residue v = ∑ i ∈ Finset.range n, if v.getLsbD i then generator ^ i else 0 := by
  simp only [residue, bitPoly, map_sum, apply_ite (AdjoinRoot.mk modulus), map_pow, AdjoinRoot.mk_X, map_zero]

@[simp] theorem residue_xor {n : Nat} (u v : BitVec n) : residue (u ^^^ v) = residue u + residue v := by
  simp only [residue, bitPoly_xor, map_add]

@[simp] theorem residue_zero : residue 0#8 = 0 := by simp [residue_eq_sum]

@[simp] theorem residue_one : residue 1#8 = 1 := by simp [residue_eq_sum]

@[simp] theorem residue_two : residue 2#8 = generator := by simp [residue_eq_sum, Finset.sum_range_succ]

/-- 0x11D divides no nonzero polynomial of degree below 8, so a byte is determined by its residue. -/
theorem residue_injective : Function.Injective (residue (n := 8)) := by
  intro a b h
  have hdvd : modulus ∣ bitPoly a - bitPoly b := AdjoinRoot.mk_eq_mk.1 h
  have hdeg : (bitPoly a - bitPoly b).degree < modulus.degree := by
    rw [degree_modulus]
    exact (degree_sub_le _ _).trans_lt (max_lt (degree_bitPoly_lt a) (degree_bitPoly_lt b))
  exact bitPoly_injective (sub_eq_zero.1 (eq_zero_of_dvd_of_degree_lt hdvd hdeg))

/-! ## Multiplication (R131) -/

/-- The pair `(r, a)` of R131 after its rounds for the low `n` bits of `b`, started on the byte `a`: `r` is the product
of `a` with those bits, `a` has been multiplied by X `n` times, and both are reduced to a byte. -/
structure AfterRounds (a b : Byte) (n : Nat) (p : BitVec 9 × BitVec 9) : Prop where
  product : residue p.1 = residue a * ∑ i ∈ Finset.range n, if b.getLsbD i then generator ^ i else 0
  shifted : residue p.2 = residue a * generator ^ n
  product_reduced : p.1[8] = false
  shifted_reduced : p.2[8] = false

/-- The doubling step of R131 multiplies by X modulo 0x11D. -/
theorem gmulRound_doubles (b : Byte) {p : BitVec 9 × BitVec 9} (t : Nat) (h : p.2[8] = false) :
    residue (gmulRound b p t).2 = residue p.2 * generator ∧ (gmulRound b p t).2[8] = false := by
  have hshift : residue (p.2 <<< 1) = residue p.2 * generator := by
    simp only [residue, bitPoly_shiftLeft_one h, map_mul, AdjoinRoot.mk_X, mul_comm]
  have hmod : residue 0x11D#9 = 0 := AdjoinRoot.mk_self
  by_cases hbit : (p.2 <<< 1)[8] = true
  · have hr : (gmulRound b p t).2 = p.2 <<< 1 ^^^ 0x11D#9 := if_pos hbit
    rw [hr, residue_xor, hshift, hmod, add_zero]
    exact ⟨rfl, by rw [BitVec.getElem_xor, hbit]; decide⟩
  · have hr : (gmulRound b p t).2 = p.2 <<< 1 := if_neg hbit
    rw [hr]
    exact ⟨hshift, by simpa using hbit⟩

/-- A round keeps the description of the pair. -/
theorem AfterRounds.round {a b : Byte} {n : Nat} {p : BitVec 9 × BitVec 9} (h : AfterRounds a b n p) :
    AfterRounds a b (n + 1) (gmulRound b p n) := by
  obtain ⟨hprod, hshift, hpred, hsred⟩ := h
  obtain ⟨hdouble, hdred⟩ := gmulRound_doubles b n hsred
  have hfst : (gmulRound b p n).1 = if b.getLsbD n then p.1 ^^^ p.2 else p.1 := rfl
  refine ⟨?_, by rw [hdouble, hshift, pow_succ, mul_assoc], ?_, hdred⟩
  · rw [hfst, Finset.sum_range_succ, mul_add, ← hprod]
    cases b.getLsbD n <;> simp [hshift]
  · simp only [hfst]
    split <;> simp [hpred, hsred]

theorem afterRounds_foldl (a b : Byte) (n : Nat) :
    AfterRounds a b n ((List.range n).foldl (gmulRound b) (0#9, a.setWidth 9)) := by
  induction n with
  | zero =>
    have hwide : bitPoly (a.setWidth 9) = bitPoly a :=
      bitPoly_setWidth 9 fun i hi => BitVec.getLsbD_of_ge a i (by omega)
    exact ⟨by simp [residue_eq_sum], by simp [residue, hwide], by simp, by simp⟩
  | succ n ih =>
    rw [List.range_succ, List.foldl_append]
    exact ih.round

/-- `gmul` multiplies residues (R130, R131). -/
@[simp] theorem residue_gmul (a b : Byte) : residue (gmul a b) = residue a * residue b := by
  obtain ⟨hprod, -, hred, -⟩ := afterRounds_foldl a b 8
  rw [residue_eq_sum b, ← hprod]
  refine congrArg (AdjoinRoot.mk modulus) (bitPoly_setWidth 8 fun i hi => ?_)
  obtain rfl | hi : i = 8 ∨ 9 ≤ i := by omega
  · exact hred
  · exact BitVec.getLsbD_of_ge _ i hi

/-! ## The ring laws (R133) -/

theorem gmul_comm (a b : Byte) : gmul a b = gmul b a := residue_injective (by simp [mul_comm])

theorem gmul_assoc (a b c : Byte) : gmul a (gmul b c) = gmul (gmul a b) c := residue_injective (by simp [mul_assoc])

theorem gmul_xor (a b c : Byte) : gmul a (b ^^^ c) = gmul a b ^^^ gmul a c := residue_injective (by simp [mul_add])

@[simp] theorem gmul_one (a : Byte) : gmul a 1#8 = a := residue_injective (by simp)

@[simp] theorem gmul_zero (a : Byte) : gmul a 0#8 = 0#8 := residue_injective (by simp)

@[simp] theorem one_gmul (a : Byte) : gmul 1#8 a = a := by rw [gmul_comm, gmul_one]

@[simp] theorem zero_gmul (a : Byte) : gmul 0#8 a = 0#8 := by rw [gmul_comm, gmul_zero]

end Sys2Proof.Machine
end

section
/-! PROOFS. The field (R130 to R134): the residue of 0x02 has order 255, the number of nonzero bytes. So every nonzero
byte is a power of 0x02 and has an inverse, the residues are a field, and 0x11D is irreducible. -/

namespace Sys2Proof.Machine

/-! ## The inverse (R132) -/

/-- A byte has at most one partner with product 1, and the search of `ginv?` finds it. -/
theorem ginv_eq_of_gmul_eq_one {a b : Byte} (h : gmul a b = 1#8) : ginv a = b := by
  have hfound : ((List.range 256).find? fun n => gmul a (BitVec.ofNat 8 n) == 1#8).isSome := by
    refine List.find?_isSome.2 ⟨b.toNat, List.mem_range.2 b.isLt, ?_⟩
    rw [BitVec.ofNat_toNat, BitVec.setWidth_eq, h]
    rfl
  obtain ⟨n, hn⟩ := Option.isSome_iff_exists.1 hfound
  have hprod : gmul a (BitVec.ofNat 8 n) = 1#8 := by simpa using List.find?_some hn
  have hginv : ginv a = BitVec.ofNat 8 n := by simp only [ginv, ginv?, hn, Option.map_some, Option.getD_some]
  calc ginv a = gmul (BitVec.ofNat 8 n) (gmul a b) := by rw [hginv, h, gmul_one]
    _ = gmul (gmul a (BitVec.ofNat 8 n)) b := by rw [gmul_assoc, gmul_comm a]
    _ = b := by rw [hprod, one_gmul]

/-! ## The powers of 0x02 (R134) -/

@[simp] theorem residue_gexp (i : Nat) : residue (gexp i) = generator ^ i := by
  induction i with
  | zero => simp [gexp]
  | succ i ih => simp [gexp, ih, pow_succ]

theorem gexp_255 : gexp 255 = 1#8 := by decide +kernel

theorem gexp_eq_one_iff (i : Nat) : gexp i = 1#8 ↔ generator ^ i = 1 := by
  rw [← residue_gexp, ← residue_one, residue_injective.eq_iff]

/-- 255 = 3 · 5 · 17, and the powers 85, 51 and 15 of 0x02 are not 1. -/
theorem orderOf_generator : orderOf generator = 255 := by
  refine orderOf_eq_of_pow_and_pow_div_prime (by decide) ((gexp_eq_one_iff _).1 gexp_255) fun p hp hdvd => ?_
  rw [Ne, ← gexp_eq_one_iff]
  have hmem : p = 3 ∨ p = 5 ∨ p = 17 := by
    have hfactor : p ∣ 3 * (5 * 17) := hdvd
    simpa only [hp.dvd_mul, Nat.prime_dvd_prime_iff_eq hp, Nat.prime_three, Nat.prime_five,
      show Nat.Prime 17 by norm_num] using hfactor
  rcases hmem with rfl | rfl | rfl <;> decide +kernel

theorem gexp_mod (i : Nat) : gexp (i % 255) = gexp i :=
  residue_injective (by rw [residue_gexp, residue_gexp, ← orderOf_generator, pow_mod_orderOf])

theorem gmul_gexp (i j : Nat) : gmul (gexp i) (gexp j) = gexp ((i + j) % 255) := by
  rw [gexp_mod]
  exact residue_injective (by simp [pow_add])

theorem gexp_injOn : Set.InjOn gexp (Finset.range 255) := by
  intro i hi j hj h
  rw [Finset.coe_range, ← orderOf_generator] at hi hj
  exact pow_injOn_Iio_orderOf hi hj (by simpa using congrArg residue h)

theorem gmul_gexp_sub {i : Nat} (hi : i < 255) : gmul (gexp i) (gexp ((255 - i) % 255)) = 1#8 := by
  have hsum : (i + (255 - i) % 255) % 255 = 0 := by omega
  rw [gmul_gexp, hsum]
  rfl

theorem gexp_ne_zero (i : Nat) : gexp i ≠ 0#8 := by
  intro h
  have hone := gmul_gexp_sub (Nat.mod_lt i (show 255 > 0 by decide))
  rw [gexp_mod, h, zero_gmul] at hone
  exact absurd hone (by decide)

/-- The 255 powers are distinct and none is 0, so no nonzero byte is left over. -/
theorem exists_gexp_eq {a : Byte} (ha : a ≠ 0#8) : ∃ i < 255, gexp i = a := by
  have hmaps : Set.MapsTo gexp (Finset.range 255) (Finset.univ.erase 0#8 : Finset Byte) :=
    fun i _ => Finset.mem_coe.2 (Finset.mem_erase.2 ⟨gexp_ne_zero i, Finset.mem_univ _⟩)
  have hcard : (Finset.univ.erase 0#8 : Finset Byte).card ≤ (Finset.range 255).card := by
    rw [Finset.card_erase_of_mem (Finset.mem_univ _), Finset.card_univ, Fintype.card_congr BitVec.equivFin.toEquiv,
      Fintype.card_fin, Finset.card_range]
    decide
  obtain ⟨i, hi, hia⟩ := Finset.surjOn_of_injOn_of_card_le gexp hmaps gexp_injOn hcard
    (Finset.mem_coe.2 (Finset.mem_erase.2 ⟨ha, Finset.mem_univ _⟩))
  exact ⟨i, Finset.mem_range.1 (Finset.mem_coe.1 hi), hia⟩

/-- A nonzero byte times its inverse is 1 (R132). -/
theorem gmul_ginv {a : Byte} (ha : a ≠ 0#8) : gmul a (ginv a) = 1#8 := by
  obtain ⟨i, hi, rfl⟩ := exists_gexp_eq ha
  rw [ginv_eq_of_gmul_eq_one (gmul_gexp_sub hi), gmul_gexp_sub hi]

/-- The inverse of the inverse is the byte itself (R137). -/
theorem ginv_ginv {a : Byte} (ha : a ≠ 0#8) : ginv (ginv a) = a :=
  ginv_eq_of_gmul_eq_one (by rw [gmul_comm, gmul_ginv ha])

/-! ## 0x11D is irreducible (R130) -/

/-- Every residue is that of a byte: sums of powers of 0x02 are bytes. -/
theorem residue_surjective : Function.Surjective (residue (n := 8)) := by
  intro x
  induction x using AdjoinRoot.induction_on with | ih p =>
  induction p using Polynomial.induction_on' with
  | add p q hp hq =>
    obtain ⟨a, ha⟩ := hp
    obtain ⟨b, hb⟩ := hq
    exact ⟨a ^^^ b, by rw [residue_xor, ha, hb, map_add]⟩
  | monomial i c =>
    obtain rfl | rfl : c = 0 ∨ c = 1 := by revert c; decide
    · exact ⟨0#8, by simp⟩
    · exact ⟨gexp i, by rw [residue_gexp, Polynomial.monomial_one_right_eq_X_pow, map_pow, AdjoinRoot.mk_X]⟩

/-- Every nonzero residue has an inverse, that of its byte. -/
theorem isField_residues : IsField (AdjoinRoot modulus) where
  exists_pair_ne := ⟨residue 0#8, residue 1#8, residue_injective.ne (by decide)⟩
  mul_comm := mul_comm
  mul_inv_cancel {x} hx := by
    obtain ⟨a, rfl⟩ := residue_surjective x
    have ha : a ≠ 0#8 := by rintro rfl; exact hx residue_zero
    exact ⟨residue (ginv a), by rw [← residue_gmul, gmul_ginv ha, residue_one]⟩

theorem irreducible_modulus : Irreducible modulus :=
  Ideal.irreducible_of_isMaximal_span_singleton monic_modulus.ne_zero
    (Ideal.Quotient.maximal_of_isField _ isField_residues)

/-! ## The statements -/

/-- Settles O1: the residues are a field, so 0x11D is irreducible; `gmul` is multiplication of residues. -/
theorem multiplicationIsPolynomialProductModulo0x11D :
    Obligations.MultiplicationIsPolynomialProductModulo0x11D := by
  refine ⟨irreducible_modulus, fun a b => ⟨bitPoly_xor a b, ?_⟩⟩
  refine AdjoinRoot.mk_eq_mk.1 ?_
  rw [map_mul]
  exact (residue_gmul a b).symm

/-- Settles O2: the laws of residues, and the inverse of a power of 0x02. -/
theorem fieldLawsHoldForAllBytes : Obligations.FieldLawsHoldForAllBytes := fun a b c =>
  ⟨gmul_comm a b, gmul_assoc a b c, gmul_xor a b c, gmul_one a, gmul_zero a, gmul_ginv⟩

/-- Settles O4: 0x02 has order 255, the number of nonzero bytes. -/
theorem powersOfTwoAreTheNonzeroBytes : Obligations.PowersOfTwoAreTheNonzeroBytes := by
  refine ⟨fun a ha => ?_, gexp_ne_zero, gexp_255, rfl, fun i _ j _ => gmul_gexp i j,
    fun i hi => ginv_eq_of_gmul_eq_one (gmul_gexp_sub hi)⟩
  obtain ⟨i, hi, rfl⟩ := exists_gexp_eq ha
  exact ⟨i, ⟨hi, rfl⟩, fun j ⟨hj, hij⟩ => gexp_injOn (Finset.mem_coe.2 (Finset.mem_range.2 hj))
    (Finset.mem_coe.2 (Finset.mem_range.2 hi)) hij⟩

end Sys2Proof.Machine
end

section
/-! PROOFS. The scalar commands (R135 to R137): how a completion with a byte for RESULT and one with a zero operand end,
and the rule of each command. -/

namespace Sys2Proof.Machine

section
variable {i : Instr} {s : State}

/-- A scalar command that succeeds leaves its byte in RESULT and reports OK; nothing else changes (R271). -/
theorem exec_of_scalarEffect {r : Byte} (h : commandRule i s = .ok (scalarEffect r)) :
    ∃ t, exec i s = .next t ∧ t.readReg .result = r.setWidth 32 ∧ t.readReg .errInfo = 0#32 ∧
      t = { s with result := t.result, err := .ok, errInfo := noError, engine := .idle, done := true } :=
  ⟨s.completeOk (scalarEffect r), by rw [exec_eq_complete, h]; rfl, rfl, noError_word, rfl⟩

/-- A scalar command with a zero operand reports DOMAIN with cause 0x20 and the operand's number as INDEX; nothing else
changes (R270, R271). -/
theorem exec_of_zeroOperand {n : Nat} (h : commandRule i s = .error ⟨.zeroOperand, n⟩) :
    ∃ t, exec i s = .next t ∧ t.err.code = 1#4 ∧
      t.readReg .errInfo = (⟨.zeroOperand, BitVec.ofNat 16 n⟩ : ErrInfo).word ∧
      t = { s with err := t.err, errInfo := t.errInfo, engine := .idle, done := true } :=
  ⟨s.raise ⟨.zeroOperand, n⟩, by rw [exec_eq_complete, h]; rfl, rfl, rfl, rfl⟩

/-! ## The rules -/

theorem gfDivRule_of_ne_zero (h : s.u8 1 ≠ 0#8) :
    gfDivRule s = .ok (scalarEffect (gmul (s.u8 0) (ginv (s.u8 1)))) := if_neg h

theorem gfDivRule_of_eq_zero (h : s.u8 1 = 0#8) : gfDivRule s = .error ⟨.zeroOperand, 1⟩ := if_pos h

theorem gfInvRule_of_ne_zero (h : s.u8 0 ≠ 0#8) : gfInvRule s = .ok (scalarEffect (ginv (s.u8 0))) := if_neg h

theorem gfInvRule_of_eq_zero (h : s.u8 0 = 0#8) : gfInvRule s = .error ⟨.zeroOperand, 0⟩ := if_pos h

end

/-! ## Values of the inverse -/

theorem ginv_one : ginv 1#8 = 1#8 := ginv_eq_of_gmul_eq_one (gmul_one _)

theorem ginv_0x02 : ginv 0x02#8 = 0x8E#8 := ginv_eq_of_gmul_eq_one (by decide)

theorem ginv_0x53 : ginv 0x53#8 = 0x8C#8 := ginv_eq_of_gmul_eq_one (by decide)

/-! ## The statements -/

/-- Settles O14: GF_MUL always succeeds, with the product of its two bytes. -/
theorem gfMulLeavesTheProductInResult : Obligations.GfMulLeavesTheProductInResult :=
  ⟨(decode_eq_ok_iff _ .gfMul).2 rfl, by decide, by decide, fun x => ⟨zero_gmul x, gmul_zero x, one_gmul x⟩,
    fun _ => exec_of_scalarEffect rfl⟩

/-- Settles O15: the rule of GF_DIV for a nonzero and for a zero divisor. -/
theorem gfDivLeavesTheQuotientOrReportsDomain : Obligations.GfDivLeavesTheQuotientOrReportsDomain := by
  refine ⟨(decode_eq_ok_iff _ .gfDiv).2 rfl, ?sample, fun a b hb => ⟨zero_gmul _, gmul_ginv hb, ?byOne⟩,
    fun s => ⟨fun h => ?nonzero, fun h => ?zero⟩⟩
  case sample => rw [one_gmul, ginv_0x02]
  case byOne => rw [ginv_one, gmul_one]
  case nonzero => exact exec_of_scalarEffect (i := .gfDiv) (gfDivRule_of_ne_zero h)
  case zero => exact exec_of_zeroOperand (i := .gfDiv) (gfDivRule_of_eq_zero h)

/-- Settles O16: the rule of GF_INV for a nonzero and for a zero operand. -/
theorem gfInvLeavesTheInverseOrReportsDomain : Obligations.GfInvLeavesTheInverseOrReportsDomain := by
  refine ⟨(decode_eq_ok_iff _ .gfInv).2 rfl, ginv_0x53, ginv_one, ginv_0x02, ?sample, fun a ha => ginv_ginv ha,
    fun s => ⟨fun h => ?nonzero, fun h => ?zero⟩⟩
  case sample => rw [← ginv_0x02, ginv_ginv (by decide)]
  case nonzero => exact exec_of_scalarEffect (i := .gfInv) (gfInvRule_of_ne_zero h)
  case zero => exact exec_of_zeroOperand (i := .gfInv) (gfInvRule_of_eq_zero h)

end Sys2Proof.Machine
end

section
/-! PROOFS. The table entry (R150) and its lookup (R151). -/

namespace Sys2Proof.Machine

/-! ## The entry of a coefficient (R150) -/

@[simp] theorem length_tableEntry (c : Byte) : (tableEntry c).length = 32 := by
  simp only [tableEntry, List.length_append, List.length_map, List.length_range]

theorem tableEntry_low (c : Byte) {t : Nat} (ht : t < 16) :
    (tableEntry c).getD t 0#8 = gmul c (BitVec.ofNat 8 t) := by
  rw [tableEntry, List.getD_append _ _ _ _ (by simpa using ht)]
  simp [List.getD, ht]

theorem tableEntry_high (c : Byte) {t : Nat} (ht : t < 16) :
    (tableEntry c).getD (16 + t) 0#8 = gmul c (BitVec.ofNat 8 t <<< 4) := by
  rw [tableEntry, List.getD_append_right _ _ _ _ (by simp)]
  simp [List.getD, ht]

theorem tableEntry_zero : tableEntry 0#8 = List.replicate 32 0#8 := by
  simp only [tableEntry, zero_gmul, List.map_const', List.length_range, List.replicate_append_replicate]

/-! ## The lookup (R151) -/

theorem toNat_and_0x0F (x : Byte) : (x &&& 0x0F#8).toNat = x.toNat % 16 :=
  Nat.and_two_pow_sub_one_eq_mod x.toNat 4

theorem toNat_shiftRight_four (x : Byte) : (x >>> 4).toNat = x.toNat / 16 := by
  rw [BitVec.toNat_ushiftRight, Nat.shiftRight_eq_div_pow]

theorem tmul_eq_getD (table : List Byte) (x : Byte) :
    tmul table x = table.getD (x.toNat % 16) 0#8 ^^^ table.getD (16 + x.toNat / 16) 0#8 := by
  rw [tmul, toNat_and_0x0F, toNat_shiftRight_four]

/-- A byte is its low nibble, exclusive-or its high nibble in place. -/
theorem nibbles_xor (x : Byte) : (x &&& 0x0F#8) ^^^ (x >>> 4 <<< 4) = x := by
  ext i hi
  have hmask : (0x0F#8)[i] = decide (i < 4) := by
    revert i
    decide
  by_cases hlow : i < 4
  · simp [hmask, hlow]
  · simp [hmask, hlow, Nat.add_sub_cancel' (Nat.le_of_not_lt hlow), BitVec.getLsbD_eq_getElem hi]

/-- The nibbles index the products of the entry, and `gmul` distributes over their exclusive-or. -/
theorem tmul_tableEntry (c x : Byte) : tmul (tableEntry c) x = gmul c x := by
  have hlow : (x &&& 0x0F#8).toNat < 16 := by rw [toNat_and_0x0F]; omega
  have hhigh : (x >>> 4).toNat < 16 := by rw [toNat_shiftRight_four]; omega
  calc tmul (tableEntry c) x = gmul c (x &&& 0x0F#8) ^^^ gmul c (x >>> 4 <<< 4) := by
        rw [tmul, tableEntry_low c hlow, tableEntry_high c hhigh, BitVec.ofNat_toNat, BitVec.ofNat_toNat,
          BitVec.setWidth_eq, BitVec.setWidth_eq]
    _ = gmul c x := by rw [← gmul_xor, nibbles_xor]

/-! ## The statements -/

/-- Settles O5: the two halves of the entry, and the products with 0 and 1. -/
theorem tableEntryHoldsTheNibbleProducts : Obligations.TableEntryHoldsTheNibbleProducts := by
  refine ⟨fun c => ⟨length_tableEntry c, fun t ht => ?halves⟩, tableEntry_zero, fun t ht => ?one,
    fun c => ⟨?byte0, ?byte16, ?byte1⟩⟩
  case halves => exact ⟨tableEntry_low c ht, tableEntry_high c ht⟩
  case one => exact ⟨(tableEntry_low 1#8 ht).trans (one_gmul _), (tableEntry_high 1#8 ht).trans (one_gmul _)⟩
  case byte0 => exact (tableEntry_low c (t := 0) (by decide)).trans (gmul_zero c)
  case byte16 => exact (tableEntry_high c (t := 0) (by decide)).trans (gmul_zero c)
  case byte1 => exact (tableEntry_low c (t := 1) (by decide)).trans (gmul_one c)

/-- Settles O6: the nibbles of a byte as numbers, and the lookup in the entry of `c`. -/
theorem tableLookupMultipliesByTheCoefficient : Obligations.TableLookupMultipliesByTheCoefficient :=
  ⟨tmul_eq_getD, tmul_tableEntry⟩

end Sys2Proof.Machine
end

section
/-! PROOFS. EXPAND (R152, R154): its stores are one run of consecutive bytes, the table entries in the order of the
matrix, and no other part of the state enters into those bytes. -/

namespace Sys2Proof.Machine

/-! ## Runs of consecutive bytes -/

theorem cellsAt_append (a : Nat) (xs ys : List Byte) :
    cellsAt a (xs ++ ys) = cellsAt a xs ++ cellsAt (a + xs.length) ys := by
  induction xs generalizing a with
  | nil => rfl
  | cons x xs ih =>
    simp only [List.cons_append, cellsAt, ih, List.length_cons, Nat.add_assoc, Nat.add_comm 1]

/-- Blocks of one width, joined: their number times that width. -/
theorem length_flatMap_range {m w : Nat} {f : Nat → List Byte} (h : ∀ j < m, (f j).length = w) :
    ((List.range m).flatMap f).length = w * m := by
  induction m with
  | zero => rfl
  | succ m ih =>
    rw [List.range_succ, List.flatMap_append, List.length_append, ih fun j hj => h j (by omega),
      List.flatMap_singleton, h m (by omega), Nat.mul_succ]

/-- Blocks of one width, each stored where the one before it ends, are one run. -/
theorem flatMap_cellsAt (a : Nat) {m w : Nat} {f : Nat → List Byte} (h : ∀ j < m, (f j).length = w) :
    ((List.range m).flatMap fun j => cellsAt (a + w * j) (f j)) = cellsAt a ((List.range m).flatMap f) := by
  induction m with
  | zero => rfl
  | succ m ih =>
    have hinit : ∀ j < m, (f j).length = w := fun j hj => h j (by omega)
    simp only [List.range_succ, List.flatMap_append, ih hinit, List.flatMap_singleton, cellsAt_append,
      length_flatMap_range hinit]

/-- After a completion that stores a run of bytes, the run is read back. -/
theorem readByte_completeOk_cellsAt (s : State) (result : Option Byte) (a : Nat) (bytes : List Byte) {n : Nat}
    (hn : n < bytes.length) : (s.completeOk ⟨result, cellsAt a bytes⟩).readByte (a + n) = bytes[n] :=
  readByte_completeOk_stored s ⟨result, cellsAt a bytes⟩ (a + n, bytes[n]) (mem_cellsAt.2 ⟨n, hn, rfl⟩)
    (cellsAt_distinct a bytes)

/-! ## The bytes of the table -/

/-- The entries of row `j` of the matrix (R152). -/
def expandRow (s : State) (j : Nat) : List Byte :=
  (List.range (s.u32 0)).flatMap fun i => tableEntry (s.readByte (s.addr 2 + j * s.u32 0 + i))

/-- The bytes EXPAND writes: the entries of the matrix, row by row (R152). -/
def expandBytes (s : State) : List Byte := (List.range (s.u32 1)).flatMap (expandRow s)

theorem length_expandRow (s : State) (j : Nat) : (expandRow s j).length = 32 * s.u32 0 :=
  length_flatMap_range fun _ _ => length_tableEntry _

theorem length_expandBytes (s : State) : (expandBytes s).length = 32 * s.u32 0 * s.u32 1 :=
  length_flatMap_range fun j _ => length_expandRow s j

/-- Entry `(j, i)` stands 32 bytes after the one before it, within its row and from row to row. -/
theorem expandStores_eq (s : State) : expandStores s = cellsAt (s.addr 3) (expandBytes s) := by
  have hentry (j i : Nat) :
      s.addr 3 + 32 * (j * s.u32 0 + i) = s.addr 3 + 32 * s.u32 0 * j + 32 * i := by ring
  calc expandStores s = (List.range (s.u32 1)).flatMap fun j =>
        cellsAt (s.addr 3 + 32 * s.u32 0 * j) (expandRow s j) := by
        simp only [expandStores, expandRow, hentry, flatMap_cellsAt _ fun _ _ => length_tableEntry _]
    _ = cellsAt (s.addr 3) (expandBytes s) := flatMap_cellsAt _ fun j _ => length_expandRow s j

/-- The table's bytes are determined by the counts and the matrix bytes. -/
theorem expandBytes_congr {s s' : State} (hk : s.u32 0 = s'.u32 0) (hrows : s.u32 1 = s'.u32 1)
    (hmat : ∀ n < s.u32 1 * s.u32 0, s.readByte (s.addr 2 + n) = s'.readByte (s'.addr 2 + n)) :
    expandBytes s = expandBytes s' := by
  unfold expandBytes expandRow
  rw [← hk, ← hrows]
  refine List.flatMap_congr fun j hj => List.flatMap_congr fun i hi => ?_
  have hn : j * s.u32 0 + i < s.u32 1 * s.u32 0 := by
    rw [Nat.mul_comm j]
    exact Nat.mul_add_lt_mul_of_lt_of_lt (List.mem_range.1 hj) (List.mem_range.1 hi)
  rw [Nat.add_assoc, Nat.add_assoc, hmat _ hn]

/-! ## The completion -/

/-- The overlap test fails exactly when no address is shared (R15). -/
theorem not_overlaps_iff_apart (r q : Region) : ¬r.overlaps q = true ↔ r.Apart q := by
  rw [overlaps_iff_exists_has]
  simp only [not_exists, not_and, Region.Apart]

/-- A chain of checks finds no error exactly when its first check passes and the rest of it finds none (R273). -/
theorem firstFailing_eq_none_iff {p : Prop} [Decidable p] {e : CmdError} {rest : Option CmdError} :
    (if p then some e else rest) = none ↔ ¬p ∧ rest = none := by
  split <;> simp [*]

/-- The checks of R152 find no error exactly when each of them passes. -/
theorem expandCheck_eq_none_iff (s : State) : expandCheck s = none ↔ ExpandRuns s := by
  simp only [expandCheck, ExpandRuns, firstFailing_eq_none_iff, not_not, inRange_iff, not_overlaps_iff_apart,
    and_true]

/-- When its checks pass, EXPAND completes with OK, and its stores are the table's bytes (R152). -/
theorem exec_expand_of_runs {s : State} (h : ExpandRuns s) :
    exec .expand s = .next (s.completeOk ⟨none, cellsAt (s.addr 3) (expandBytes s)⟩) := by
  have hrule : commandRule .expand s = .ok ⟨none, expandStores s⟩ := by
    simp only [commandRule, expandRule, (expandCheck_eq_none_iff s).2 h]
  rw [exec_eq_complete, hrule, expandStores_eq]
  rfl

/-- Settles O19: each table is its state's run of entries, and the two runs are equal. -/
theorem tableDependsOnlyOnTheMatrix : Obligations.TableDependsOnlyOnTheMatrix := by
  intro s s' t t' hruns hruns' hk hrows hmat ht ht' n hn
  rw [exec_expand_of_runs hruns, expandBytes_congr hk hrows hmat] at ht
  rw [exec_expand_of_runs hruns'] at ht'
  have hlen : n < (expandBytes s').length := by rwa [length_expandBytes, ← hk, ← hrows]
  cases ht
  cases ht'
  rw [readByte_completeOk_cellsAt _ _ _ _ hlen, readByte_completeOk_cellsAt _ _ _ _ hlen]

end Sys2Proof.Machine
end

section
/-! PROOFS. Gauss-Jordan elimination (R170): each row operation of the model is an operation on matrices given by their
elements, and a pivot column is the three of them in turn. -/

namespace Sys2Proof.Machine

/-! ## Matrices by their elements -/

theorem length_matrixOf (n m : Nat) (f : Nat → Nat → Byte) : (matrixOf n m f).length = n := by simp [matrixOf]

theorem getD_matrixOf {n : Nat} (m : Nat) (f : Nat → Nat → Byte) {r : Nat} (hr : r < n) :
    (matrixOf n m f).getD r [] = (List.range m).map (f r) := by
  simp [matrixOf, List.getD, hr]

theorem entry_matrixOf {n m : Nat} (f : Nat → Nat → Byte) {r c : Nat} (hr : r < n) (hc : c < m) :
    entry (matrixOf n m f) r c = f r c := by
  rw [entry, getD_matrixOf m f hr]
  simp [List.getD, hc]

/-- A list of `n` rows is the matrix of `f` when its rows are those of `f`. -/
theorem eq_matrixOf {n m : Nat} {a : ByteMatrix} {f : Nat → Nat → Byte} (hlen : a.length = n)
    (hrow : ∀ r (h : r < a.length), a[r] = (List.range m).map (f r)) : a = matrixOf n m f := by
  refine List.ext_getElem (by rw [hlen, length_matrixOf]) fun r h _ => ?_
  simp [hrow r h, matrixOf]

/-! ## The row operations (R170) -/

/-- Rows `c` and `r` swapped. -/
def swappedRows (c r : Nat) (f : Nat → Nat → Byte) : Nat → Nat → Byte := fun i => f (Equiv.swap c r i)

/-- Row `c` scaled by `p`. -/
def scaledRow (c : Nat) (p : Byte) (f : Nat → Nat → Byte) : Nat → Nat → Byte := fun i j =>
  if i = c then gmul (f i j) p else f i j

/-- Row `c` of `g` added to each other row, times that row's element of column `c` of `f`. -/
def clearedColumn (c : Nat) (f g : Nat → Nat → Byte) : Nat → Nat → Byte := fun i j =>
  if i = c then g i j else g i j ^^^ gmul (f i c) (g c j)

/-- The pivot column `c` with pivot row `r` (R170), chosen and scaled by `f`, on the elements of `g`. -/
def pivotedRows (c r : Nat) (f g : Nat → Nat → Byte) : Nat → Nat → Byte :=
  let p := ginv (swappedRows c r f c c)
  clearedColumn c (scaledRow c p (swappedRows c r f)) (scaledRow c p (swappedRows c r g))

theorem swapRows_matrixOf {n c r : Nat} (f : Nat → Nat → Byte) (hc : c < n) (hr : r < n) :
    swapRows c r (matrixOf n n f) = matrixOf n n (swappedRows c r f) := by
  refine eq_matrixOf (by simp [swapRows, length_matrixOf]) fun i _ => ?_
  simp only [swapRows, getD_matrixOf n f hc, getD_matrixOf n f hr, List.getElem_set, swappedRows, Equiv.swap_apply_def]
  by_cases hri : r = i
  · subst hri
    by_cases hrc : r = c <;> simp [hrc]
  · by_cases hci : c = i
    · simp [hri, hci]
    · simp [hri, hci, Ne.symm hri, Ne.symm hci, matrixOf]

theorem scaleAt_matrixOf {n c : Nat} (p : Byte) (f : Nat → Nat → Byte) (hc : c < n) :
    scaleAt c p (matrixOf n n f) = matrixOf n n (scaledRow c p f) := by
  refine eq_matrixOf (by simp [scaleAt, length_matrixOf]) fun i _ => ?_
  simp only [scaleAt, getD_matrixOf n f hc, scaleRow, List.map_map, List.getElem_set]
  by_cases hci : c = i
  · subst hci
    simp [scaledRow]
  · simp [hci, Ne.symm hci, matrixOf, scaledRow]

theorem addScaledRow_map_range (n : Nat) (p : Byte) (u v : Nat → Byte) :
    addScaledRow p ((List.range n).map u) ((List.range n).map v) =
      (List.range n).map fun j => v j ^^^ gmul p (u j) := by
  simp [addScaledRow, List.zipWith_map, List.zipWith_self]

theorem clearColumn_matrixOf {n c : Nat} (f g : Nat → Nat → Byte) (hc : c < n) :
    clearColumn c (matrixOf n n f) (matrixOf n n g) = matrixOf n n (clearedColumn c f g) := by
  refine eq_matrixOf (by simp [clearColumn, length_matrixOf]) fun i hi => ?_
  have hin : i < n := by simpa [clearColumn, length_matrixOf] using hi
  simp only [clearColumn, List.getElem_mapIdx, getD_matrixOf n g hc, entry_matrixOf f hin hc]
  by_cases hic : i = c
  · simp [hic, matrixOf, clearedColumn]
  · simp [hic, matrixOf, clearedColumn, addScaledRow_map_range]

/-! ## The pivot row (R170) -/

/-- Column `c` has no nonzero element in rows `c..n-1`, so elimination finds no pivot for it (R170). -/
def NoPivot (n c : Nat) (f : Nat → Nat → Byte) : Prop := ∀ i, c ≤ i → i < n → f i c = 0#8

section
variable {n c r : Nat} {f : Nat → Nat → Byte}

theorem pivotRow_eq_some (hc : c < n) (h : pivotRow n c (matrixOf n n f) = some r) :
    c ≤ r ∧ r < n ∧ f r c ≠ 0#8 := by
  unfold pivotRow at h
  split at h
  next hdiag =>
    cases h
    exact ⟨le_rfl, hc, by rwa [entry_matrixOf f hc hc] at hdiag⟩
  next =>
    have hr : r < n := List.mem_range.1 (List.mem_of_find?_eq_some h)
    have hfound := List.find?_some h
    simp only [Bool.and_eq_true, decide_eq_true_eq, bne_iff_ne, entry_matrixOf f hr hc] at hfound
    exact ⟨hfound.1.le, hr, hfound.2⟩

theorem pivotRow_eq_none (hc : c < n) (h : pivotRow n c (matrixOf n n f) = none) : NoPivot n c f := by
  intro i hci hi
  unfold pivotRow at h
  split at h
  next => cases h
  next hdiag =>
    rw [entry_matrixOf f hc hc, not_not] at hdiag
    obtain rfl | hlt := hci.eq_or_lt
    · exact hdiag
    · simpa [hlt, entry_matrixOf f hi hc] using List.find?_eq_none.1 h i (List.mem_range.2 hi)

/-- A pivot column applies the same operation to both halves. -/
theorem eliminateColumn_of_pivotRow {g : Nat → Nat → Byte} (hc : c < n) (hr : r < n)
    (h : pivotRow n c (matrixOf n n f) = some r) :
    eliminateColumn n c ⟨matrixOf n n f, matrixOf n n g⟩ =
      some ⟨matrixOf n n (pivotedRows c r f f), matrixOf n n (pivotedRows c r f g)⟩ := by
  simp only [eliminateColumn, h, swapRows_matrixOf _ hc hr, entry_matrixOf _ hc hc, scaleAt_matrixOf _ _ hc,
    clearColumn_matrixOf _ _ hc, pivotedRows]

/-! ## The columns after a pivot -/

/-- A column that is already a unit column stays one. -/
theorem pivotedRows_earlier (hcr : c ≤ r) {j : Nat} (hj : j < c) (h : ∀ i, f i j = if i = j then 1#8 else 0#8)
    (g : Nat → Nat → Byte) (i : Nat) : pivotedRows c r g f i j = if i = j then 1#8 else 0#8 := by
  have hswap (i : Nat) : swappedRows c r f i j = if i = j then 1#8 else 0#8 := by
    simp only [swappedRows, h, Equiv.swap_apply_eq_iff, Equiv.swap_apply_of_ne_of_ne hj.ne (hj.trans_le hcr).ne]
  have hscale (p : Byte) (i : Nat) : scaledRow c p (swappedRows c r f) i j = if i = j then 1#8 else 0#8 := by
    simp only [scaledRow, hswap]
    split
    next hi => simp [show i ≠ j by omega]
    next => rfl
  simp only [pivotedRows, clearedColumn, hscale, if_neg hj.ne', gmul_zero, BitVec.xor_zero, ite_self]

/-- The pivot column becomes a unit column: the pivot times its inverse is 1, and every other element cancels. -/
theorem pivotedRows_pivot (hne : f r c ≠ 0#8) (i : Nat) :
    pivotedRows c r f f i c = if i = c then 1#8 else 0#8 := by
  have hpivot : scaledRow c (ginv (f r c)) (swappedRows c r f) c c = 1#8 := by
    simp [scaledRow, swappedRows, gmul_ginv hne]
  have hrc : swappedRows c r f c c = f r c := by simp [swappedRows]
  simp only [pivotedRows, hrc, clearedColumn, hpivot, gmul_one, BitVec.xor_self]
  split
  next hi => rw [hi, hpivot]
  next => rfl

end

end Sys2Proof.Machine
end

section
/-! PROOFS. Byte matrices as matrices over the residues (R130, R172): inverses and dependent columns there, and the row
operations of elimination as products with invertible matrices. -/

namespace Sys2Proof.Machine

open Matrix

/-- The field of the bytes (R130): the residues modulo 0x11D. -/
abbrev Residue : Type := AdjoinRoot modulus

/-- The `n×n` matrix with the elements of `f`. -/
noncomputable def residueMatrix (n : Nat) (f : Nat → Nat → Byte) : Matrix (Fin n) (Fin n) Residue :=
  of fun i j => residue (f i j)

@[simp] theorem residueMatrix_apply {n : Nat} (f : Nat → Nat → Byte) (i j : Fin n) :
    residueMatrix n f i j = residue (f i j) := rfl

theorem residueMatrix_eq_iff {n : Nat} {f g : Nat → Nat → Byte} :
    residueMatrix n f = residueMatrix n g ↔ ∀ r < n, ∀ c < n, f r c = g r c := by
  simp only [← Matrix.ext_iff, Fin.forall_iff, residueMatrix_apply, residue_injective.eq_iff]

theorem residue_one_ne_zero : (1 : Residue) ≠ 0 := by
  rw [← residue_one, ← residue_zero]
  exact residue_injective.ne (by decide)

theorem residue_ite (p : Prop) [Decidable p] : residue (if p then 1#8 else 0#8) = if p then 1 else 0 := by
  split <;> simp

/-! ## Products and inverses (R172) -/

theorem residue_xorSum (n : Nat) (h : Nat → Byte) :
    residue (xorSum n h) = ∑ i ∈ Finset.range n, residue (h i) := by
  induction n with
  | zero => exact residue_zero
  | succ n ih =>
    have hsucc : xorSum (n + 1) h = xorSum n h ^^^ h n := by simp [xorSum, xorAll, List.range_succ]
    rw [hsucc, residue_xor, ih, Finset.sum_range_succ]

theorem residueMatrix_mul_apply {n : Nat} (f g : Nat → Nat → Byte) (i j : Fin n) :
    (residueMatrix n f * residueMatrix n g) i j = residue (xorSum n fun t => gmul (f i t) (g t j)) := by
  simp only [residue_xorSum, Finset.sum_range, mul_apply, residueMatrix_apply, residue_gmul]

theorem residueMatrix_mul_eq_one_iff {n : Nat} (f g : Nat → Nat → Byte) :
    residueMatrix n f * residueMatrix n g = 1 ↔
      ∀ r < n, ∀ c < n, xorSum n (fun t => gmul (f r t) (g t c)) = if r = c then 1#8 else 0#8 := by
  simp only [← Matrix.ext_iff, Fin.forall_iff, residueMatrix_mul_apply, one_apply, Fin.mk.injEq, ← residue_ite,
    residue_injective.eq_iff]

/-- A one-sided inverse of a square matrix is two-sided. -/
theorem inverseOf_iff {n : Nat} {f g : Nat → Nat → Byte} :
    InverseOf n f g ↔ residueMatrix n g * residueMatrix n f = 1 := by
  constructor
  · exact fun h => (residueMatrix_mul_eq_one_iff g f).2 fun r hr c hc => (h r hr c hc).2
  · exact fun h r hr c hc => ⟨(residueMatrix_mul_eq_one_iff f g).1 (mul_eq_one_comm.1 h) r hr c hc,
      (residueMatrix_mul_eq_one_iff g f).1 h r hr c hc⟩

/-! ## Dependent columns (R171) -/

/-- The weights of columns `0..c`, with weight 0 for the columns after them. -/
noncomputable def columnWeights (n c : Nat) (w : Nat → Byte) : Fin n → Residue := fun j =>
  if (j : Nat) ≤ c then residue (w j) else 0

theorem exists_columnWeights_eq {n c : Nat} {v : Fin n → Residue} (hv : ∀ j : Fin n, c < j → v j = 0) :
    ∃ w, columnWeights n c w = v := by
  choose b hb using residue_surjective
  refine ⟨fun j => if h : j < n then b (v ⟨j, h⟩) else 0#8, funext fun j => ?_⟩
  by_cases hj : (j : Nat) ≤ c
  · simp [columnWeights, hj, hb]
  · simp [columnWeights, hj, hv j (by omega)]

section
variable {n c : Nat} (hc : c < n)
include hc

theorem columnWeights_ne_zero_iff {w : Nat → Byte} : columnWeights n c w ≠ 0 ↔ ∃ j ≤ c, w j ≠ 0#8 := by
  have hzero (j : Fin n) : columnWeights n c w j ≠ 0 ↔ (j : Nat) ≤ c ∧ w j ≠ 0#8 := by
    rw [columnWeights, ← residue_zero, Ne, ite_eq_right_iff, residue_injective.eq_iff, Classical.not_imp]
  rw [Function.ne_iff]
  simp only [Pi.zero_apply, hzero]
  exact ⟨fun ⟨j, hj⟩ => ⟨j, hj⟩, fun ⟨j, hj, hw⟩ => ⟨⟨j, hj.trans_lt hc⟩, hj, hw⟩⟩

theorem mulVec_columnWeights (f : Nat → Nat → Byte) (w : Nat → Byte) (i : Fin n) :
    (residueMatrix n f *ᵥ columnWeights n c w) i = residue (xorSum (c + 1) fun j => gmul (w j) (f i j)) := by
  have hcols : (Finset.range n).filter (· ≤ c) = Finset.range (c + 1) := by
    ext j
    simp only [Finset.mem_filter, Finset.mem_range]
    omega
  calc (residueMatrix n f *ᵥ columnWeights n c w) i
      = ∑ j ∈ Finset.range n, if j ≤ c then residue (w j) * residue (f i j) else 0 := by
        simp only [mulVec, dotProduct, residueMatrix_apply, columnWeights, Finset.sum_range,
          mul_comm (residue (f _ _)), ite_mul, zero_mul]
    _ = residue (xorSum (c + 1) fun j => gmul (w j) (f i j)) := by
        rw [← Finset.sum_filter, hcols]
        simp only [residue_xorSum, residue_gmul]

/-- Columns `0..c` are dependent exactly when a nonzero vector with no later component is mapped to 0. -/
theorem columnsDependent_iff (f : Nat → Nat → Byte) :
    ColumnsDependent n f c ↔
      ∃ v : Fin n → Residue, v ≠ 0 ∧ (∀ j : Fin n, c < j → v j = 0) ∧ residueMatrix n f *ᵥ v = 0 := by
  have hker (w : Nat → Byte) : residueMatrix n f *ᵥ columnWeights n c w = 0 ↔
      ∀ r < n, xorSum (c + 1) (fun j => gmul (w j) (f r j)) = 0#8 := by
    simp only [funext_iff, mulVec_columnWeights hc, Pi.zero_apply, Fin.forall_iff,
      residue_injective.eq_iff' residue_zero]
  constructor
  · rintro ⟨w, hne, hdep⟩
    exact ⟨columnWeights n c w, (columnWeights_ne_zero_iff hc).2 hne, fun j hj => if_neg hj.not_ge, (hker w).2 hdep⟩
  · rintro ⟨v, hne, hsupp, hv⟩
    obtain ⟨w, rfl⟩ := exists_columnWeights_eq hsupp
    exact ⟨w, (columnWeights_ne_zero_iff hc).1 hne, (hker w).1 hv⟩

/-- A matrix with dependent columns has no inverse. -/
theorem not_inverseOf_of_columnsDependent {f : Nat → Nat → Byte} (h : ColumnsDependent n f c) :
    ¬∃ g, InverseOf n f g := by
  rintro ⟨g, hg⟩
  obtain ⟨v, hne, -, hv⟩ := (columnsDependent_iff hc f).1 h
  refine hne ?_
  rw [← one_mulVec v, ← inverseOf_iff.1 hg, ← mulVec_mulVec, hv, mulVec_zero]

/-- A zero column is dependent by itself. -/
theorem columnsDependent_of_zero_column {f : Nat → Nat → Byte} (h : ∀ r < n, f r c = 0#8) :
    ColumnsDependent n f c := by
  refine (columnsDependent_iff hc f).2 ⟨Pi.single ⟨c, hc⟩ 1, ?_, fun j hj => ?_, funext fun i => ?_⟩
  · exact (Pi.single_ne_zero_iff).2 residue_one_ne_zero
  · exact Pi.single_eq_of_ne (Fin.ne_of_gt hj) 1
  · rw [mulVec_single_one]
    simp [h i i.isLt]

end

/-- A matrix with a zero row has no inverse: that row of the product is 0. -/
theorem not_inverseOf_of_zero_row {n r : Nat} {f : Nat → Nat → Byte} (hr : r < n) (h : ∀ c < n, f r c = 0#8) :
    ¬∃ g, InverseOf n f g := by
  rintro ⟨g, hg⟩
  have hone := congrArg residue (hg r hr r hr).1
  rw [if_pos rfl, residue_one, residue_xorSum, Finset.sum_eq_zero fun t ht => ?_] at hone
  · exact residue_one_ne_zero hone.symm
  · rw [h t (Finset.mem_range.1 ht), zero_gmul, residue_zero]

/-! ## Row operations as products -/

/-- The operation multiplies every matrix from the left by one invertible matrix. -/
def IsRowOperation (n : Nat) (op : (Nat → Nat → Byte) → Nat → Nat → Byte) : Prop :=
  ∃ e : Matrix (Fin n) (Fin n) Residue, IsUnit e ∧ ∀ g, residueMatrix n (op g) = e * residueMatrix n g

theorem IsRowOperation.comp {n : Nat} {op op' : (Nat → Nat → Byte) → Nat → Nat → Byte} (h : IsRowOperation n op)
    (h' : IsRowOperation n op') : IsRowOperation n (op ∘ op') := by
  obtain ⟨e, he, hop⟩ := h
  obtain ⟨e', he', hop'⟩ := h'
  exact ⟨e * e', he.mul he', fun g => by rw [Function.comp_apply, hop, hop', Matrix.mul_assoc]⟩

/-- A column that is 0 at `c`, times the unit row of `c`, has square 0, so 1 plus it is invertible. -/
theorem isUnit_one_add_vecMulVec_single {n : Nat} {c : Fin n} {u : Fin n → Residue} (hu : u c = 0) :
    IsUnit (1 + vecMulVec u (Pi.single c 1)) := by
  have hsq : vecMulVec u (Pi.single c 1) * vecMulVec u (Pi.single c 1) = 0 := by
    rw [vecMulVec_mul_vecMulVec]
    simp [hu]
  refine .of_mul_eq_one (1 - vecMulVec u (Pi.single c 1)) ?_
  rw [mul_sub, mul_one, add_mul, one_mul, hsq, add_zero, add_sub_cancel_right]

section
variable {n c r : Nat}

theorem isRowOperation_swappedRows (hc : c < n) (hr : r < n) : IsRowOperation n (swappedRows c r) := by
  refine ⟨swap Residue ⟨c, hc⟩ ⟨r, hr⟩, .of_mul_eq_one _ (swap_mul_self _ _), fun g => ?_⟩
  ext i j
  have hval : Equiv.swap c r i = Equiv.swap (⟨c, hc⟩ : Fin n) ⟨r, hr⟩ i :=
    Fin.val_injective.swap_apply ⟨c, hc⟩ ⟨r, hr⟩ i
  simp [swappedRows, swap, PEquiv.toMatrix_toPEquiv_mul, hval]

theorem isRowOperation_scaledRow {a p : Byte} (hp : gmul a p = 1#8) : IsRowOperation n (scaledRow c p) := by
  have hunit : IsUnit (residue p) := .of_mul_eq_one (residue a) (by rw [mul_comm, ← residue_gmul, hp, residue_one])
  refine ⟨diagonal fun i => if (i : Nat) = c then residue p else 1, ?unit, fun g => ?_⟩
  case unit =>
    refine isUnit_diagonal.2 (Pi.isUnit_iff.2 fun i => ?_)
    split
    · exact hunit
    · exact isUnit_one
  · ext i j
    simp only [residueMatrix_apply, scaledRow, diagonal_mul]
    split <;> simp [mul_comm]

theorem isRowOperation_clearedColumn (hc : c < n) (f : Nat → Nat → Byte) :
    IsRowOperation n (clearedColumn c f) := by
  refine ⟨1 + vecMulVec (fun i : Fin n => if (i : Nat) = c then 0 else residue (f i c)) (Pi.single ⟨c, hc⟩ 1),
    isUnit_one_add_vecMulVec_single (if_pos rfl), fun g => ?_⟩
  ext i j
  simp only [residueMatrix_apply, clearedColumn, add_mul, one_mul, Matrix.add_apply, vecMulVec_mul, vecMulVec_apply,
    single_one_vecMul, row_apply]
  split <;> simp

theorem isRowOperation_pivotedRows {f : Nat → Nat → Byte} (hc : c < n) (hr : r < n) (hne : f r c ≠ 0#8) :
    IsRowOperation n (pivotedRows c r f) := by
  have hpivot : gmul (swappedRows c r f c c) (ginv (swappedRows c r f c c)) = 1#8 :=
    gmul_ginv (by simpa [swappedRows] using hne)
  exact (isRowOperation_clearedColumn hc _).comp
    ((isRowOperation_scaledRow hpivot).comp (isRowOperation_swappedRows hc hr))

end

end Sys2Proof.Machine
end

section
/-! PROOFS. Elimination as a whole (R171, R172): before each pivot column the working matrix is the other half times the
input matrix, that half is invertible, and the columns done are unit columns. What elimination answers follows. -/

namespace Sys2Proof.Machine

open Matrix

/-! ## The invariant -/

/-- The two halves `f` and `g` of the elimination of `m`, with columns `0..c-1` done. -/
structure Reduced (n c : Nat) (m f g : Nat → Nat → Byte) : Prop where
  isUnit : IsUnit (residueMatrix n g)
  product : residueMatrix n f = residueMatrix n g * residueMatrix n m
  columns : ∀ j < c, ∀ i, f i j = if i = j then 1#8 else 0#8

/-- The elements of `identityMatrix`. -/
def identityEntry (r c : Nat) : Byte := if r = c then 1#8 else 0#8

theorem residueMatrix_identityEntry (n : Nat) : residueMatrix n identityEntry = 1 := by
  ext i j
  rw [residueMatrix_apply, identityEntry, residue_ite, one_apply]
  simp only [Fin.ext_iff]

theorem reduced_identityEntry (n : Nat) (m : Nat → Nat → Byte) : Reduced n 0 m m identityEntry where
  isUnit := by
    rw [residueMatrix_identityEntry]
    exact isUnit_one
  product := by rw [residueMatrix_identityEntry, Matrix.one_mul]
  columns _ h := absurd h (Nat.not_lt_zero _)

section
variable {n c : Nat} {m f g : Nat → Nat → Byte}

/-- A pivot column keeps the invariant, with one more column done. -/
theorem Reduced.pivot {r : Nat} (h : Reduced n c m f g) (hcr : c ≤ r) (hr : r < n) (hne : f r c ≠ 0#8) :
    Reduced n (c + 1) m (pivotedRows c r f f) (pivotedRows c r f g) := by
  obtain ⟨hunit, hprod, hcols⟩ := h
  obtain ⟨e, he, hop⟩ := isRowOperation_pivotedRows (hcr.trans_lt hr) hr hne
  refine ⟨by rw [hop]; exact he.mul hunit, by rw [hop, hop, hprod, Matrix.mul_assoc], fun j hj i => ?_⟩
  obtain hj | rfl := Nat.lt_succ_iff_lt_or_eq.1 hj
  · exact pivotedRows_earlier hcr hj (hcols j hj) f i
  · exact pivotedRows_pivot hne i

/-- The last `k` pivot columns all succeed, or elimination stops at a column without a pivot. -/
theorem eliminateColumns_cases (k : Nat) (hk : c + k = n) (h : Reduced n c m f g) :
    (∃ f' g', eliminateColumns n (List.range' c k) ⟨matrixOf n n f, matrixOf n n g⟩ =
        .ok ⟨matrixOf n n f', matrixOf n n g'⟩ ∧ Reduced n n m f' g') ∨
      ∃ c' f' g', eliminateColumns n (List.range' c k) ⟨matrixOf n n f, matrixOf n n g⟩ = .error c' ∧
        c' < n ∧ Reduced n c' m f' g' ∧ NoPivot n c' f' := by
  induction k generalizing c f g with
  | zero =>
    obtain rfl : c = n := hk
    exact .inl ⟨f, g, rfl, h⟩
  | succ k ih =>
    have hc : c < n := by omega
    rw [List.range'_succ]
    cases hp : pivotRow n c (matrixOf n n f) with
    | none =>
      refine .inr ⟨c, f, g, ?_, hc, h, pivotRow_eq_none hc hp⟩
      simp only [eliminateColumns, eliminateColumn, hp]
    | some r =>
      obtain ⟨hcr, hr, hne⟩ := pivotRow_eq_some hc hp
      simp only [eliminateColumns, eliminateColumn_of_pivotRow hc hr hp]
      exact ih (by omega) (h.pivot hcr hr hne)

/-- Everything elimination can answer. -/
theorem gjInvert_cases (n : Nat) (m : Nat → Nat → Byte) :
    (∃ f g, gjInvert (matrixOf n n m) n = .ok (matrixOf n n g) ∧ Reduced n n m f g) ∨
      ∃ c f g, gjInvert (matrixOf n n m) n = .error c ∧ c < n ∧ Reduced n c m f g ∧ NoPivot n c f := by
  have hident : identityMatrix n = matrixOf n n identityEntry := rfl
  rw [gjInvert, hident, List.range_eq_range']
  obtain ⟨f, g, hok, h⟩ | ⟨c, f, g, herror, hfail⟩ :=
    eliminateColumns_cases n (Nat.zero_add n) (reduced_identityEntry n m)
  · exact .inl ⟨f, g, by rw [hok], h⟩
  · exact .inr ⟨c, f, g, by rw [herror], hfail⟩

/-! ## What the invariant says of the input matrix -/

/-- On vectors with components in the columns done, the working matrix is the identity. -/
theorem Reduced.mulVec_eq_self (h : Reduced n c m f g) {v : Fin n → Residue} (hv : ∀ j : Fin n, c ≤ j → v j = 0) :
    residueMatrix n f *ᵥ v = v := by
  have hterm (i j : Fin n) : residueMatrix n f i j * v j = (1 : Matrix (Fin n) (Fin n) Residue) i j * v j := by
    by_cases hj : (j : Nat) < c
    · rw [residueMatrix_apply, h.columns j hj, residue_ite, one_apply]
      simp only [Fin.ext_iff]
    · rw [hv j (Nat.le_of_not_lt hj), mul_zero, mul_zero]
  calc residueMatrix n f *ᵥ v = 1 *ᵥ v := by
        ext i
        simp only [mulVec, dotProduct, hterm]
    _ = v := one_mulVec v

/-- The input matrix and the working matrix map the same vectors to 0. -/
theorem Reduced.mulVec_eq_zero_iff (h : Reduced n c m f g) (v : Fin n → Residue) :
    residueMatrix n f *ᵥ v = 0 ↔ residueMatrix n m *ᵥ v = 0 := by
  rw [h.product, ← mulVec_mulVec]
  exact (mulVec_injective_of_isUnit h.isUnit).eq_iff' (mulVec_zero _)

/-- The columns done are independent. -/
theorem Reduced.not_columnsDependent (h : Reduced n c m f g) (hc : c ≤ n) {c' : Nat} (hlt : c' < c) :
    ¬ColumnsDependent n m c' := by
  rw [columnsDependent_iff (hlt.trans_le hc)]
  rintro ⟨v, hne, hsupp, hv⟩
  rw [← h.mulVec_eq_zero_iff, h.mulVec_eq_self fun j hj => hsupp j (hlt.trans_le hj)] at hv
  exact hne hv

/-- A column without a pivot is, in the working matrix, a combination of the unit columns before it; so column `c` of
the input matrix is the same combination of the columns before it. -/
theorem Reduced.columnsDependent (h : Reduced n c m f g) (hc : c < n) (hnone : NoPivot n c f) :
    ColumnsDependent n m c := by
  have hcol (j : Fin n) (hj : c ≤ j) : (residueMatrix n f).col ⟨c, hc⟩ j = 0 := by
    simp [hnone j hj j.isLt]
  refine (columnsDependent_iff hc m).2
    ⟨(residueMatrix n f).col ⟨c, hc⟩ - Pi.single ⟨c, hc⟩ 1, fun hzero => ?_, fun j hj => ?_, ?_⟩
  · have hone := congrFun hzero ⟨c, hc⟩
    rw [Pi.sub_apply, hcol _ le_rfl, Pi.single_eq_same, zero_sub, Pi.zero_apply, neg_eq_zero] at hone
    exact residue_one_ne_zero hone
  · rw [Pi.sub_apply, hcol j hj.le, Pi.single_eq_of_ne (Fin.ne_of_gt hj), sub_zero]
  · rw [← h.mulVec_eq_zero_iff, mulVec_sub, h.mulVec_eq_self hcol, mulVec_single_one, sub_self]

/-- With every column done, the other half is the inverse. -/
theorem Reduced.inverseOf (h : Reduced n n m f g) : InverseOf n m g := by
  rw [inverseOf_iff, ← h.product]
  refine ext_of_mulVec_single fun j => ?_
  rw [h.mulVec_eq_self fun i hi => absurd i.isLt hi.not_gt, one_mulVec]

/-! ## What elimination answers -/

/-- A result of elimination is an inverse (R172). -/
theorem inverseOf_of_gjInvert_eq_ok {x : ByteMatrix} (hok : gjInvert (matrixOf n n m) n = .ok x) :
    InverseOf n m (entry x) := by
  obtain ⟨f, g, hg, h⟩ | ⟨c, f, g, herror, -⟩ := gjInvert_cases n m
  · obtain rfl : matrixOf n n g = x := Except.ok.inj (hg.symm.trans hok)
    have hentry : residueMatrix n (entry (matrixOf n n g)) = residueMatrix n g :=
      residueMatrix_eq_iff.2 fun r hr c hc => entry_matrixOf g hr hc
    rw [inverseOf_iff, hentry]
    exact inverseOf_iff.1 h.inverseOf
  · cases herror.symm.trans hok

/-- The column reported is the first that depends on those before it (R171). -/
theorem columnsDependent_of_gjInvert_eq_error (herror : gjInvert (matrixOf n n m) n = .error c) :
    c < n ∧ ColumnsDependent n m c ∧ ∀ c' < c, ¬ColumnsDependent n m c' := by
  obtain ⟨f, g, hok, -⟩ | ⟨c₀, f, g, hc₀, hlt, h, hnone⟩ := gjInvert_cases n m
  · cases hok.symm.trans herror
  · obtain rfl : c₀ = c := Except.error.inj (hc₀.symm.trans herror)
    exact ⟨hlt, h.columnsDependent hlt hnone, fun c' hc' => h.not_columnsDependent hlt.le hc'⟩

theorem exists_gjInvert_eq_error_iff : (∃ c, gjInvert (matrixOf n n m) n = .error c) ↔ ¬∃ g, InverseOf n m g := by
  constructor
  · rintro ⟨c, herror⟩
    obtain ⟨hc, hdep, -⟩ := columnsDependent_of_gjInvert_eq_error herror
    exact not_inverseOf_of_columnsDependent hc hdep
  · intro hsingular
    cases hresult : gjInvert (matrixOf n n m) n with
    | error c => exact ⟨c, rfl⟩
    | ok x => exact absurd ⟨entry x, inverseOf_of_gjInvert_eq_ok hresult⟩ hsingular

/-- Elimination fails at the first column that depends on those before it. -/
theorem gjInvert_eq_error_of_columnsDependent (hc : c < n) (hdep : ColumnsDependent n m c)
    (hfirst : ∀ c' < c, ¬ColumnsDependent n m c') : gjInvert (matrixOf n n m) n = .error c := by
  obtain ⟨c₀, herror⟩ := exists_gjInvert_eq_error_iff.2 (not_inverseOf_of_columnsDependent hc hdep)
  obtain ⟨-, hdep₀, hfirst₀⟩ := columnsDependent_of_gjInvert_eq_error herror
  obtain rfl : c₀ = c := le_antisymm (not_lt.1 fun h => hfirst₀ c h hdep) (not_lt.1 fun h => hfirst c₀ h hdep₀)
  exact herror

end

/-! ## The statements -/

/-- Settles O22: the result is an inverse, and a matrix has at most one. -/
theorem eliminationFindsTheUniqueInverse : Obligations.EliminationFindsTheUniqueInverse := by
  intro n f x hok
  have hx := inverseOf_of_gjInvert_eq_ok hok
  refine ⟨hx, fun g hg => residueMatrix_eq_iff.1 ?_⟩
  exact left_inv_eq_right_inv (inverseOf_iff.1 hg) (mul_eq_one_comm.1 (inverseOf_iff.1 hx))

/-- Settles O23: a dependent column, and a zero row, exclude an inverse; the column reported is the first dependent
one. -/
theorem eliminationFailsAtTheFirstDependentColumn : Obligations.EliminationFailsAtTheFirstDependentColumn := by
  intro n f
  refine ⟨exists_gjInvert_eq_error_iff, fun c => columnsDependent_of_gjInvert_eq_error, fun r hr hrow => ?zeroRow,
    fun c hc hcol hfirst => ?zeroColumn⟩
  case zeroRow => exact exists_gjInvert_eq_error_iff.2 (not_inverseOf_of_zero_row hr hrow)
  case zeroColumn => exact gjInvert_eq_error_of_columnsDependent hc (columnsDependent_of_zero_column hc hcol) hfirst

end Sys2Proof.Machine
end

section
/-! PROOFS. The selection of DERIVE (R191) and the decode index (R192): the selection is the first `k` of the surviving
rows, of which a consistent descriptor leaves at least `k`, and a successful DERIVE stores it last. -/

namespace Sys2Proof.Machine

/-! ## Bytes read as a list (R13) -/

theorem length_readBytes (s : State) (a n : Nat) : (s.readBytes a n).length = n := by simp [State.readBytes]

theorem getD_readBytes (s : State) (a : Nat) {t n : Nat} (ht : t < n) :
    (s.readBytes a n).getD t 0#8 = s.readByte (a + t) := by
  simp [State.readBytes, List.getD, ht]

/-! ## The surviving rows (R190) -/

/-- The rows below `m` that are not marked, ascending. -/
def survivors (s : State) : List Nat := (List.range (s.u32 1)).filter fun r => denseAt s r ≠ 1#8

section
variable {s : State}

theorem mem_survivors {r : Nat} : r ∈ survivors s ↔ r < s.u32 1 ∧ denseAt s r ≠ 1#8 := by
  simp [survivors]

theorem survivors_ascending (s : State) : (survivors s).Pairwise (· < ·) := List.pairwise_lt_range.filter _

/-- The marked rows are `n_err` in number, and the other rows survive (R190 (e)). -/
theorem length_survivors (h : DescriptorConsistent s) : s.u32 2 + (survivors s).length = s.u32 1 := by
  obtain ⟨-, -, -, -, hcount, -⟩ := h
  have hsplit := List.length_eq_countP_add_countP (fun r => decide (denseAt s r = 1#8)) (l := List.range (s.u32 1))
  rw [List.length_range, hcount, List.countP_eq_length_filter] at hsplit
  simpa [survivors] using hsplit.symm

/-! ## The selection (R191) -/

theorem marked_deriveDescriptor {r : Nat} (hr : r < s.u32 1) :
    (deriveDescriptor s).marked r = decide (denseAt s r = 1#8) :=
  congrArg (· == 1#8) (getD_readBytes s (s.addr 5) hr)

theorem selection_eq (s : State) : (deriveDescriptor s).selection = (survivors s).take (s.u32 0) := by
  have hrows : (deriveDescriptor s).dense.length = s.u32 1 := length_readBytes s (s.addr 5) (s.u32 1)
  rw [Descriptor.selection, hrows, survivors]
  refine congrArg _ (List.filter_congr fun r hr => ?_)
  rw [marked_deriveDescriptor (List.mem_range.1 hr), decide_not]

theorem length_selection (h : DeriveRuns s) : (deriveDescriptor s).selection.length = s.u32 0 := by
  obtain ⟨⟨-, ⟨hkm, -⟩, herr, -⟩, -, -, hconsistent⟩ := h
  have hlen := length_survivors hconsistent
  rw [selection_eq, List.length_take]
  omega

theorem selection_ascending (s : State) : (deriveDescriptor s).selection.Pairwise (· < ·) := by
  rw [selection_eq]
  exact (survivors_ascending s).take

theorem mem_survivors_of_mem_selection {r : Nat} (h : r ∈ (deriveDescriptor s).selection) : r ∈ survivors s :=
  List.mem_of_mem_take (selection_eq s ▸ h)

/-- A surviving row left out comes after every row taken. -/
theorem lt_of_notMem_selection {q r : Nat} (hr : r ∈ survivors s) (hleft : r ∉ (deriveDescriptor s).selection)
    (hq : q ∈ (deriveDescriptor s).selection) : q < r := by
  rw [selection_eq] at hleft hq
  have hsorted := survivors_ascending s
  rw [← List.take_append_drop (s.u32 0) (survivors s)] at hsorted hr
  exact (List.pairwise_append.1 hsorted).2.2 q hq r ((List.mem_append.1 hr).resolve_left hleft)

theorem entry_selectionMatrix {q t : Nat} (hq : q < (deriveDescriptor s).selection.length) (ht : t < s.u32 0) :
    entry (selectionMatrix s) q t = s.readByte (s.addr 4 + (deriveDescriptor s).selection[q] * s.u32 0 + t) := by
  simp [entry, selectionMatrix, List.getD, hq, ht]

/-! ## The decode index in memory (R192) -/

/-- A chain of checks reports PRECOND when its first check does and the rest of it does (R273). -/
theorem precond_of_firstFailing {p : Prop} [Decidable p] {e : CmdError} {rest : Option CmdError}
    (he : e.cause.err = .precond) (hrest : ∀ e' ∈ rest, e'.cause.err = .precond) :
    ∀ e' ∈ if p then some e else rest, e'.cause.err = .precond := by
  split
  · rintro _ ⟨⟩
    exact he
  · exact hrest

/-- Each of the eleven checks of R196 reports PRECOND. -/
theorem deriveCheck_precond (s : State) : ∀ e ∈ deriveCheck s, e.cause.err = .precond := by
  unfold deriveCheck
  iterate 11 refine precond_of_firstFailing rfl ?_
  rintro _ ⟨⟩

/-- DERIVE completes with OK only with the stores of R196. -/
theorem eq_completeOk_of_exec_derive {t : State} (h : exec .derive s = .next t) (hok : t.err = .ok) :
    ∃ binv, t = s.completeOk ⟨none, deriveStores s binv⟩ := by
  rw [exec_eq_complete, commandRule, deriveRule] at h
  cases hc : deriveCheck s with
  | some e =>
    simp only [hc] at h
    cases h
    cases (deriveCheck_precond s e hc).symm.trans hok
  | none =>
    cases hg : gjInvert (selectionMatrix s) (s.u32 0) with
    | error c =>
      simp only [hc, hg] at h
      cases h
      cases hok
    | ok binv =>
      simp only [hc, hg] at h
      cases h
      exact ⟨binv, rfl⟩

/-- After a completion whose last stores are a run of bytes, the run is read back, whatever was stored before it. -/
theorem readByte_completeOk_append_cellsAt (s : State) (result : Option Byte) (first : List Host.Cell) (a : Nat)
    (bytes : List Byte) {n : Nat} (hn : n < bytes.length) :
    (s.completeOk ⟨result, first ++ cellsAt a bytes⟩).readByte (a + n) = bytes[n] := by
  have hlast := lookup_writeAll_mem (cellsAt a bytes) (s.mem.writeAll first) (a + n, bytes[n])
    (mem_cellsAt.2 ⟨n, hn, rfl⟩) (cellsAt_distinct a bytes)
  have hmem : (s.mem.writeAll (first ++ cellsAt a bytes)) = (s.mem.writeAll first).writeAll (cellsAt a bytes) :=
    List.foldl_append
  simp only [State.readByte, completeOk_mem, hmem, hlast, Option.getD_some]

/-- After a successful DERIVE, byte `q` of `idx` is the `q`-th selected row: a row index fits in a byte (R9). -/
theorem readByte_decodeIndex {t : State} (hlegal : s.cfg.Legal) (hruns : DeriveRuns s)
    (ht : exec .derive s = .next t) (hok : t.err = .ok) {q : Nat} (hq : q < (deriveDescriptor s).selection.length) :
    (t.readByte (s.addr 8 + q)).toNat = (deriveDescriptor s).selection[q] := by
  obtain ⟨binv, rfl⟩ := eq_completeOk_of_exec_derive ht hok
  obtain ⟨-, -, hm, -, -⟩ := hlegal
  obtain ⟨⟨-, ⟨-, hmMax⟩, -⟩, -⟩ := hruns
  obtain ⟨hrow, -⟩ := mem_survivors.1 (mem_survivors_of_mem_selection (List.getElem_mem hq))
  rw [deriveStores, readByte_completeOk_append_cellsAt _ _ _ _ _ (by simpa using hq), List.getElem_map,
    BitVec.toNat_ofNat, Nat.mod_eq_of_lt (by omega)]

end

/-! ## The statements -/

/-- Settles O26: the selection is a sorted list of survivors cut after `k`, and there are at least `k` of them. -/
theorem selectionIsTheFirstSurvivingRows : Obligations.SelectionIsTheFirstSurvivingRows := by
  intro s hruns sel
  have hlen : sel.length = s.u32 0 := length_selection hruns
  refine ⟨hlen, selection_ascending s, fun r hr => mem_survivors.1 (mem_survivors_of_mem_selection hr),
    fun r hr hfree hleft q hq => lt_of_notMem_selection (mem_survivors.2 ⟨hr, hfree⟩) hleft hq,
    fun q hq t ht => ?_⟩
  rw [← hlen] at hq
  rw [List.getD_eq_getElem _ _ hq]
  exact entry_selectionMatrix hq ht

/-- Settles O27: the bytes of `idx` are the selection, an ascending list of surviving rows, and the mark of a surviving
row is 0 as it is not 1 (R190 (a)). -/
theorem decodeIndexNamesSurvivingRowsInOrder : Obligations.DecodeIndexNamesSurvivingRowsInOrder := by
  intro s t hlegal hruns ht hok
  have hread {q : Nat} (hq : q < (deriveDescriptor s).selection.length) := readByte_decodeIndex hlegal hruns ht hok hq
  rw [← length_selection hruns]
  refine ⟨fun q hq => ?survives, fun q hq => ?ascending⟩
  case survives =>
    obtain ⟨-, -, -, hbits, -⟩ := hruns
    obtain ⟨hrow, hfree⟩ := mem_survivors.1 (mem_survivors_of_mem_selection (List.getElem_mem hq))
    rw [hread hq]
    exact ⟨(List.getD_eq_getElem _ _ hq).symm, hrow, (hbits _ hrow).resolve_right hfree⟩
  case ascending =>
    rw [hread (Nat.lt_of_succ_lt hq), hread hq]
    exact List.pairwise_iff_getElem.1 (selection_ascending s) q (q + 1) _ hq q.lt_succ_self

end Sys2Proof.Machine
end

section
/-! PROOFS. ENCODE (R220, R223): when its checks pass it completes with OK; each byte of each output row is read back,
for the outputs are apart; and over the entries of EXPAND that byte is a dot product over the field. -/

namespace Sys2Proof.Machine

/-! ## The checks (R220) -/

/-- No pointer entry is reported exactly when every buffer is in range (R273). -/
theorem firstOutside_eq_none_iff (s : State) (base len count : Nat) :
    firstOutside s base len count = none ↔ ∀ t < count, (s.buffer base len t).Inside s.cfg := by
  simp only [firstOutside, List.find?_eq_none, List.mem_range, Bool.not_eq_true', Bool.not_eq_false, inRange_iff]

theorem not_encodeOverlap_iff_apart (s : State) : ¬encodeOverlap s = true ↔ EncodeApart s := by
  simp only [encodeOverlap, EncodeApart, encodeOutput, encodeInput, List.any_eq_true, List.mem_range, List.any_append,
    List.any_cons, List.any_nil, Bool.or_false, List.any_map, Function.comp_apply, Bool.or_eq_true, Bool.and_eq_true,
    bne_iff_ne, not_exists, not_and, not_or, not_overlaps_iff_apart, and_assoc]

/-- The checks of R220 find no error exactly when each of them passes. -/
theorem encodeCheck_eq_none_iff (s : State) : encodeCheck s = none ↔ EncodeRuns s := by
  have hsources := firstOutside_eq_none_iff s (s.addr 4) (s.u32 0) (s.u32 1)
  have hdests := firstOutside_eq_none_iff s (s.addr 5) (s.u32 0) (s.u32 2)
  simp only [encodeCheck, EncodeRuns, EncodeDirect, encodeInput, encodeOutput, firstFailing_eq_none_iff, not_not,
    inRange_iff, and_assoc, ← hsources, ← hdests]
  cases firstOutside s (s.addr 4) (s.u32 0) (s.u32 1) with
  | some i => simp
  | none =>
    cases firstOutside s (s.addr 5) (s.u32 0) (s.u32 2) with
    | some j => simp
    | none => simp [← not_encodeOverlap_iff_apart]

/-- When its checks pass, ENCODE completes with OK and the stores of its output rows. -/
theorem exec_encode_of_runs {s : State} (h : EncodeRuns s) :
    exec .encode s = .next (s.completeOk ⟨none, encodeStores s⟩) := by
  have hrule : commandRule .encode s = .ok ⟨none, encodeStores s⟩ := by
    simp only [commandRule, encodeRule, (encodeCheck_eq_none_iff s).2 h]
  rw [exec_eq_complete, hrule]
  rfl

/-! ## The output rows in memory -/

/-- Runs of bytes that stand in regions apart from each other name no address twice. -/
theorem flatMap_cellsAt_distinct {m : Nat} {base : Nat → Nat} {f : Nat → List Byte}
    (h : ∀ i < m, ∀ j < m, j ≠ i → (Region.mk (base i) (f i).length).Apart ⟨base j, (f j).length⟩) :
    ((List.range m).flatMap fun j => cellsAt (base j) (f j)).Pairwise fun x y => x.1 ≠ y.1 := by
  refine List.pairwise_flatMap.2 ⟨fun j _ => cellsAt_distinct (base j) (f j), ?_⟩
  refine List.pairwise_lt_range.imp_of_mem fun {i j} hi hj hij x hx y hy => ?_
  obtain ⟨t, ht, rfl⟩ := mem_cellsAt.1 hx
  obtain ⟨u, hu, rfl⟩ := mem_cellsAt.1 hy
  intro (heq : base i + t = base j + u)
  have hapart := h i (List.mem_range.1 hi) j (List.mem_range.1 hj) hij.ne'
  exact hapart (base i + t) ⟨Nat.le_add_right .., Nat.add_lt_add_left ht _⟩
    (heq ▸ ⟨Nat.le_add_right .., Nat.add_lt_add_left hu _⟩)

theorem length_macRow (s : State) (tbl srcs srcv len j : Nat) : (macRow s tbl srcs srcv len j).length = len := by
  simp only [macRow, List.length_map, List.length_range]

theorem encodeStores_distinct {s : State} (h : EncodeApart s) :
    (encodeStores s).Pairwise fun x y => x.1 ≠ y.1 := by
  refine flatMap_cellsAt_distinct fun i hi j hj hne => ?_
  obtain ⟨-, -, -, -, houtputs⟩ := h i hi
  rw [length_macRow, length_macRow]
  exact houtputs j hj hne

/-- After ENCODE, byte `pos` of output `j` is its lane of the MAC array (R220). -/
theorem readByte_encodeOutput {s : State} (h : EncodeApart s) {j pos : Nat} (hj : j < s.u32 2) (hpos : pos < s.u32 0) :
    (s.completeOk ⟨none, encodeStores s⟩).readByte ((encodeOutput s j).base + pos) =
      macByte s (s.addr 3) (s.u32 1) (s.addr 4) j pos := by
  have hcell : ((encodeOutput s j).base + pos, macByte s (s.addr 3) (s.u32 1) (s.addr 4) j pos) ∈ encodeStores s :=
    List.mem_flatMap.2 ⟨j, List.mem_range.2 hj, mem_cellsAt.2 ⟨pos, by rwa [length_macRow], by
      simp only [macRow, List.getElem_map, List.getElem_range, encodeOutput, State.buffer]⟩⟩
  exact readByte_completeOk_stored s ⟨none, encodeStores s⟩ _ hcell (encodeStores_distinct h)

/-! ## Lanes over the table of EXPAND (R223) -/

theorem xorSum_congr {n : Nat} {f g : Nat → Byte} (h : ∀ i < n, f i = g i) : xorSum n f = xorSum n g :=
  congrArg xorAll (List.map_congr_left fun i hi => h i (List.mem_range.1 hi))

/-- Memory that holds the bytes of an entry, read as a list, is that entry. -/
theorem readBytes_eq_tableEntry {s : State} {a : Nat} {c : Byte}
    (h : ∀ n < 32, s.readByte (a + n) = (tableEntry c).getD n 0#8) : s.readBytes a 32 = tableEntry c := by
  refine List.ext_getElem (by rw [length_readBytes, length_tableEntry]) fun n hread hentry => ?_
  rw [length_readBytes] at hread
  rw [← List.getD_eq_getElem _ 0#8, ← List.getD_eq_getElem _ 0#8, getD_readBytes s a hread, h n hread]

/-- A lane whose row of the table holds the entries of `c` multiplies each input byte by its coefficient. -/
theorem macByte_eq_xorSum {s : State} {tbl srcs srcv j pos : Nat} {c : Nat → Byte}
    (h : ∀ i < srcs, ∀ n < 32, s.readByte (tbl + 32 * (j * srcs + i) + n) = (tableEntry (c i)).getD n 0#8) :
    macByte s tbl srcs srcv j pos = xorSum srcs fun i => gmul (s.readByte (s.pointer srcv i + pos)) (c i) :=
  xorSum_congr fun i hi => by rw [readBytes_eq_tableEntry (h i hi), tmul_tableEntry, gmul_comm]

/-! ## The statements -/

/-- Settles O33: the completion stores the lanes, and each lane is a dot product over the field. -/
theorem encodeOverAnExpandedTableIsTheFieldDotProduct :
    Obligations.EncodeOverAnExpandedTableIsTheFieldDotProduct := by
  intro s c hruns htable
  refine ⟨_, exec_encode_of_runs hruns, rfl, fun j hj pos hpos => ?_⟩
  obtain ⟨-, -, -, hapart⟩ := hruns
  exact (readByte_encodeOutput hapart hj hpos).trans (macByte_eq_xorSum (htable j hj))

end Sys2Proof.Machine
end

section
/-! PROOFS. The CTRL write (R277), all its cases together. -/

namespace Sys2Proof.Machine

/-- Settles O41: 0x0C is the offset of CTRL, and each combination of SRESET, START and the phase is one case of a CTRL
write. An accepted START draws its delay, so only `schedule` and `draws` change besides what R277 says. -/
theorem ctrlWriteResetsOrStartsOrEnables : Obligations.CtrlWriteResetsOrStartsOrEnables := by
  intro s r rest v hacc s'
  have hctrl : perform r rest s = s'.writeCtrl r.agent r.seq v := perform_regWrite_legal hacc (by decide)
  rw [hctrl]
  refine ⟨writeCtrl_sreset _ _, writeCtrl_enable _ _, writeCtrl_start_busy (s := s') _ _,
    fun h1 h0 hidle hordered => ?accepted⟩
  case accepted => exact ⟨_, s'.nextDelay, writeCtrl_start_idle _ _ h1 h0 hidle hordered, rfl⟩

end Sys2Proof.Machine
end

section
/-! PROOFS. What a reset leaves (R312): each state after a reset, and the state at power-on, is one whose registers are
at their reset values already, so the registers are read off once, from `resetRegisters`. -/

namespace Sys2Proof.Machine

/-! ## The reset values of the registers -/

/-- Every register but the three constants reads 0 at its reset value. -/
theorem readReg_resetRegisters (s : State) {reg : Reg} (h : reg ∉ [Reg.id, .params, .memsize]) :
    s.resetRegisters.readReg reg = 0#32 := by
  cases reg with
  | id | params | memsize => simp at h
  | ctrl | cmd | result | reserved => rfl
  | status => simp [State.readReg, State.statusWord, State.busy, ErrCode.code]
  | errInfo => exact noError_word
  | arg i => simp [State.readReg, Vector.get]

/-- MEMSIZE reads MEM_BYTES mod 2^32 (R35). -/
theorem memsizeWord_toNat (cfg : Config) : (memsizeWord cfg).toNat = cfg.memBytes % 2 ^ 32 := BitVec.toNat_ofNat ..

/-! ## The resets -/

/-- A soft reset of an idle engine only resets the registers (R311). -/
theorem softReset_idle {s : State} (h : s.engine = .idle) : s.softReset = s.resetRegisters := by
  simp only [State.softReset, h]

@[simp] theorem resetRegisters_hardReset (s : State) : s.hardReset.resetRegisters = s.hardReset := rfl

@[simp] theorem resetRegisters_softReset (s : State) : s.softReset.resetRegisters = s.softReset := by
  unfold State.softReset
  split <;> rfl

@[simp] theorem softReset_cfg (s : State) : s.softReset.cfg = s.cfg := by
  unfold State.softReset
  split <;> rfl

/-- Either reset and power-on leave the registers at their reset values, and no reset changes a parameter. -/
theorem resetRegisters_eq_self_of_reset {s t : State}
    (h : t = s.hardReset ∨ t = s.softReset ∨ (s = State.reset ∧ t = s)) :
    t.resetRegisters = t ∧ t.cfg = s.cfg := by
  rcases h with rfl | rfl | ⟨rfl, rfl⟩
  · exact ⟨resetRegisters_hardReset s, hardReset_cfg s⟩
  · exact ⟨resetRegisters_softReset s, softReset_cfg s⟩
  · exact ⟨rfl, rfl⟩

/-! ## The statements -/

/-- Settles O51: a state after a reset is its own `resetRegisters` with the parameters kept, and an idle soft reset is
`resetRegisters`, which leaves the memory. -/
theorem resetLeavesTheListedValues : Obligations.ResetLeavesTheListedValues := by
  refine ⟨fun s t ht => ?values, fun s hlegal => ⟨paramsWord_toNat hlegal, memsizeWord_toNat s.cfg⟩,
    fun s hidle a => ?memory⟩
  case values =>
    obtain ⟨hreset, hcfg⟩ := resetRegisters_eq_self_of_reset ht
    have hzero {reg : Reg} (h : reg ∉ [Reg.id, .params, .memsize]) : t.readReg reg = 0#32 :=
      hreset ▸ readReg_resetRegisters t h
    have hengine : t.engine = .idle := hreset ▸ resetRegisters_engine t
    have hirq : t.irq = false := hreset ▸ rfl
    exact ⟨rfl, congrArg paramsWord hcfg, congrArg memsizeWord hcfg, hzero (by decide), hzero (by decide),
      hzero (by decide), hzero (by decide), hzero (by decide), fun i => hzero (by simp), hzero (by decide), hengine,
      hirq⟩
  case memory =>
    rw [softReset_idle hidle]
    rfl

end Sys2Proof.Machine
end

section
/-! PROOFS. The checks of the block commands (R273): a command whose checks find an error reports it, and they find the
error of the first condition that fails. -/

namespace Sys2Proof.Machine

/-- The checks of a block command, before it computes anything; a scalar command has none. -/
def commandCheck : Instr → State → Option CmdError
  | .expand, s => expandCheck s
  | .invert, s => invertCheck s
  | .derive, s => deriveCheck s
  | .dotp, s => dotpCheck s
  | .encode, s => encodeCheck s
  | .gfMul, _ | .gfDiv, _ | .gfInv, _ => none

section
variable {i : Instr} {s : State} {e : CmdError}

theorem commandRule_of_check (h : commandCheck i s = some e) : commandRule i s = .error e := by
  cases i with
  | gfMul | gfDiv | gfInv => cases h
  | expand => simp only [commandRule, expandRule, show expandCheck s = some e from h]
  | invert => simp only [commandRule, invertRule, show invertCheck s = some e from h]
  | derive => simp only [commandRule, deriveRule, show deriveCheck s = some e from h]
  | dotp => simp only [commandRule, dotpRule, show dotpCheck s = some e from h]
  | encode => simp only [commandRule, encodeRule, show encodeCheck s = some e from h]

/-- What the checks find is reported, with the numbers of R270. -/
theorem reports_of_check (h : commandCheck i s = some e) :
    Reports i s e.cause.err.code.toNat e.cause.code.toNat e.index := reports_of_error s (commandRule_of_check h)

end

theorem overlaps_iff_not_apart (r q : Region) : r.overlaps q = true ↔ ¬r.Apart q :=
  (not_iff_comm.1 (not_overlaps_iff_apart r q)).symm

/-! ## The pointer entries (R273) -/

/-- The entry reported is the first whose buffer is out of range. -/
theorem firstOutside_eq_some {s : State} {base len count t : Nat} (ht : t < count)
    (hout : ¬(s.buffer base len t).Inside s.cfg) (hbefore : ∀ t' < t, (s.buffer base len t').Inside s.cfg) :
    firstOutside s base len count = some t := by
  simp only [firstOutside, List.find?_range_eq_some, List.mem_range, Bool.not_not, Bool.not_eq_true',
    ← Bool.not_eq_true, inRange_iff]
  exact ⟨hout, ht, hbefore⟩

theorem dotpOverlap_iff_not_apart (s : State) :
    ((Region.mk (s.addr 4) (s.u32 0)).overlaps ⟨s.addr 2, 32 * s.u32 1⟩ ||
        (Region.mk (s.addr 4) (s.u32 0)).overlaps ⟨s.addr 3, 4 * s.u32 1⟩ ||
        (List.range (s.u32 1)).any fun i =>
          (Region.mk (s.addr 4) (s.u32 0)).overlaps (s.buffer (s.addr 3) (s.u32 0) i)) = true ↔ ¬DotpApart s := by
  rw [iff_not_comm]
  simp only [DotpApart, Bool.or_eq_true, List.any_eq_true, List.mem_range, not_or, not_exists, not_and,
    not_overlaps_iff_apart, and_assoc]

theorem encodeOverlap_iff_not_apart (s : State) : encodeOverlap s = true ↔ ¬EncodeApart s :=
  (not_iff_comm.1 (not_encodeOverlap_iff_apart s)).symm

/-! ## INVERT and DOTP (R173, R221) -/

/-- The checks of R173 find no error exactly when each of them passes. -/
theorem invertCheck_eq_none_iff (s : State) : invertCheck s = none ↔ InvertRuns s := by
  simp only [invertCheck, InvertRuns, firstFailing_eq_none_iff, not_not, inRange_iff, not_overlaps_iff_apart,
    and_true]

/-- A singular matrix is reported with the column at which elimination fails (R173). -/
theorem invertRule_singular {s : State} {c : Nat} (hruns : InvertRuns s)
    (hc : gjInvert (s.readMatrix (s.addr 1) (s.u32 0) (s.u32 0)) (s.u32 0) = .error c) :
    commandRule .invert s = .error ⟨.singularPivot, c⟩ := by
  simp only [commandRule, invertRule, (invertCheck_eq_none_iff s).2 hruns, hc]

/-- The checks of R221 find no error exactly when each of them passes. -/
theorem dotpCheck_eq_none_iff (s : State) : dotpCheck s = none ↔ DotpRuns s := by
  have hsources := firstOutside_eq_none_iff s (s.addr 3) (s.u32 0) (s.u32 1)
  simp only [dotpCheck, DotpRuns, DotpDirect, firstFailing_eq_none_iff, not_not, inRange_iff, and_assoc, ← hsources]
  cases firstOutside s (s.addr 3) (s.u32 0) (s.u32 1) with
  | some i => simp
  | none => simp only [firstFailing_eq_none_iff, dotpOverlap_iff_not_apart, not_not, and_true, true_and]

/-! ## DERIVE: the regions in argument order, and the descriptor (R190, R196) -/

/-- The checks that a list of regions is in range, from argument number `n` on, before the checks `rest`. -/
def regionChecks (cfg : Config) (rest : Option CmdError) : Nat → List Region → Option CmdError
  | _, [] => rest
  | n, r :: rs => if ¬r.inRange cfg then some ⟨.addrRange, n⟩ else regionChecks cfg rest (n + 1) rs

section
variable {cfg : Config} {rest : Option CmdError} {rs : List Region}

theorem regionChecks_of_inside (n : Nat) (h : ∀ r ∈ rs, r.Inside cfg) : regionChecks cfg rest n rs = rest := by
  induction rs generalizing n with
  | nil => rfl
  | cons r rs ih =>
    obtain ⟨hr, hrs⟩ := List.forall_mem_cons.1 h
    exact (if_neg (not_not.2 ((inRange_iff r cfg).2 hr))).trans (ih (n + 1) hrs)

theorem regionChecks_eq_none_iff (n : Nat) :
    regionChecks cfg rest n rs = none ↔ (∀ r ∈ rs, r.Inside cfg) ∧ rest = none := by
  induction rs generalizing n with
  | nil => simp [regionChecks]
  | cons r rs ih =>
    rw [regionChecks, firstFailing_eq_none_iff, ih, not_not, inRange_iff, List.forall_mem_cons, and_assoc]

/-- The region reported is the first that is out of range. -/
theorem regionChecks_of_first (n : Nat) {t : Nat} {r : Region} (hr : rs[t]? = some r) (hout : ¬r.Inside cfg)
    (hbefore : ∀ t' < t, ∀ q, rs[t']? = some q → q.Inside cfg) :
    regionChecks cfg rest n rs = some ⟨.addrRange, n + t⟩ := by
  induction rs generalizing n t with
  | nil => cases hr
  | cons q rs ih =>
    cases t with
    | zero =>
      cases hr
      exact if_pos (mt (inRange_iff r cfg).1 hout)
    | succ t =>
      have hq : q.inRange cfg = true := (inRange_iff q cfg).2 (hbefore 0 t.succ_pos q rfl)
      have hrs := ih (n + 1) hr fun t' ht' => hbefore (t' + 1) (Nat.succ_lt_succ ht')
      rw [Nat.add_right_comm] at hrs
      exact (if_neg (not_not.2 hq)).trans hrs

end

/-- The overlap test of R196. -/
def deriveOverlap (s : State) : Bool :=
  (deriveOutputs s).any (fun o => (deriveInputs s).any o.overlaps) ||
    (Region.mk (s.addr 7) (s.u32 2 * s.u32 0)).overlaps ⟨s.addr 8, s.u32 0⟩

section
variable {s : State}

theorem deriveOverlap_iff_not_apart (s : State) : deriveOverlap s = true ↔ ¬DeriveApart s := by
  rw [iff_not_comm]
  simp only [deriveOverlap, DeriveApart, Bool.or_eq_true, List.any_eq_true, not_or, not_exists, not_and,
    not_overlaps_iff_apart]

theorem missing_deriveDescriptor {p : Nat} (hp : p < s.u32 2) : (deriveDescriptor s).missing p = sparseAt s p :=
  congrArg BitVec.toNat (getD_readBytes s (s.addr 6) hp)

/-- The test of R190 is its six conditions. -/
theorem consistent_iff (s : State) : (deriveDescriptor s).consistent = true ↔ DescriptorConsistent s := by
  have hm : (deriveDescriptor s).dense.length = s.u32 1 := length_readBytes ..
  have hn : (deriveDescriptor s).sparse.length = s.u32 2 := length_readBytes ..
  have hbits : ((deriveDescriptor s).dense.all fun v => v == 0#8 || v == 1#8) = true ↔
      ∀ r < s.u32 1, denseAt s r = 0#8 ∨ denseAt s r = 1#8 := by
    simp [deriveDescriptor, State.readBytes, denseAt]
  have hascending : ((List.range (s.u32 2 - 1)).all fun p =>
      (deriveDescriptor s).missing p < (deriveDescriptor s).missing (p + 1)) = true ↔
      ∀ p < s.u32 2 - 1, sparseAt s p < sparseAt s (p + 1) := by
    simp only [List.all_eq_true, List.mem_range, decide_eq_true_eq]
    refine forall₂_congr fun p hp => ?_
    rw [missing_deriveDescriptor (by omega), missing_deriveDescriptor (by omega)]
  have hrows : ((List.range (s.u32 2)).all fun p => (deriveDescriptor s).missing p < s.u32 1) = true ↔
      ∀ p < s.u32 2, sparseAt s p < s.u32 1 := by
    simp only [List.all_eq_true, List.mem_range, decide_eq_true_eq]
    exact forall₂_congr fun p hp => by rw [missing_deriveDescriptor hp]
  have hmarked (hrows : ∀ p < s.u32 2, sparseAt s p < s.u32 1) :
      ((List.range (s.u32 2)).all fun p => (deriveDescriptor s).marked ((deriveDescriptor s).missing p)) = true ↔
      ∀ p < s.u32 2, denseAt s (sparseAt s p) = 1#8 := by
    simp only [List.all_eq_true, List.mem_range]
    refine forall₂_congr fun p hp => ?_
    rw [missing_deriveDescriptor hp, marked_deriveDescriptor (hrows p hp), decide_eq_true_eq]
  have hcount : ((List.range (s.u32 1)).filter (deriveDescriptor s).marked).length =
      (List.range (s.u32 1)).countP fun r => denseAt s r = 1#8 := by
    rw [← List.countP_eq_length_filter]
    exact List.countP_congr fun r hr => by rw [marked_deriveDescriptor (List.mem_range.1 hr)]
  have hsources : ((List.range (s.u32 2)).filter fun p => (deriveDescriptor s).missing p < s.u32 0).length =
      (List.range (s.u32 2)).countP fun p => sparseAt s p < s.u32 0 := by
    rw [← List.countP_eq_length_filter]
    exact List.countP_congr fun p hp => by rw [missing_deriveDescriptor (List.mem_range.1 hp)]
  have hk : (deriveDescriptor s).k = s.u32 0 := rfl
  have hsrc : (deriveDescriptor s).nSrcErr = s.u32 3 := rfl
  simp only [Descriptor.consistent, DescriptorConsistent, hm, hn, hk, hsrc, Bool.and_eq_true, beq_iff_eq, hbits,
    hascending, hrows, hcount, hsources, and_assoc]
  refine and_congr_right fun _ => and_congr_right fun _ => and_congr_right fun h => ?_
  rw [hmarked h]

/-- The checks of R196: the counts, then the regions, then the overlap, then the descriptor. -/
theorem deriveCheck_eq (s : State) : deriveCheck s =
    if ¬(1 ≤ s.u32 0 ∧ s.u32 0 ≤ s.cfg.kMax) then some ⟨.countRange, 0⟩
    else if ¬(s.u32 0 ≤ s.u32 1 ∧ s.u32 1 ≤ s.cfg.mMax) then some ⟨.countRange, 1⟩
    else if ¬(s.u32 2 ≤ s.u32 1 - s.u32 0) then some ⟨.countRange, 2⟩
    else if ¬(s.u32 3 ≤ min (s.u32 2) (s.u32 0)) then some ⟨.countRange, 3⟩
    else regionChecks s.cfg
      (if deriveOverlap s then some ⟨.overlap, 0⟩
        else if ¬(deriveDescriptor s).consistent then some ⟨.erasureInconsistent, 0⟩ else none)
      4 (deriveInputs s ++ deriveOutputs s) := rfl

theorem deriveCheck_of_counts (h : DeriveCounts s) :
    deriveCheck s = regionChecks s.cfg
      (if deriveOverlap s then some ⟨.overlap, 0⟩
        else if ¬(deriveDescriptor s).consistent then some ⟨.erasureInconsistent, 0⟩ else none)
      4 (deriveInputs s ++ deriveOutputs s) := by
  obtain ⟨h0, h1, h2, h3⟩ := h
  simp only [deriveCheck_eq, and_self, not_true_eq_false, reduceIte, *]

/-- The checks of R196 find no error exactly when each of them passes. -/
theorem deriveCheck_eq_none_iff (s : State) : deriveCheck s = none ↔ DeriveRuns s := by
  simp only [deriveCheck_eq, DeriveRuns, DeriveCounts, firstFailing_eq_none_iff, regionChecks_eq_none_iff,
    deriveOverlap_iff_not_apart, consistent_iff, not_not, and_true, and_assoc]

/-- A singular selection is reported with the column at which elimination fails (R196). -/
theorem deriveRule_singular {c : Nat} (hruns : DeriveRuns s)
    (hc : gjInvert (selectionMatrix s) (s.u32 0) = .error c) :
    commandRule .derive s = .error ⟨.singularPivot, c⟩ := by
  simp only [commandRule, deriveRule, (deriveCheck_eq_none_iff s).2 hruns, hc]

end

/-! ## The statements -/

/-- Settles O18: with the conditions before it met, the failing one is the first of the chain. -/
theorem expandReportsItsFirstFailingCheck : Obligations.ExpandReportsItsFirstFailingCheck := by
  intro s
  dsimp only
  have report {e : CmdError} (h : expandCheck s = some e) := reports_of_check (i := .expand) h
  refine ⟨fun h0 => report (e := ⟨.countRange, 0⟩) ?_, fun h0 h1 => report (e := ⟨.countRange, 1⟩) ?_,
    fun h0 h1 hmat => report (e := ⟨.addrRange, 2⟩) ?_, fun h0 h1 hmat htbl => report (e := ⟨.addrRange, 3⟩) ?_,
    fun h0 h1 hmat htbl hapart => report (e := ⟨.overlap, 0⟩) ?_⟩
  all_goals
    simp only [expandCheck, inRange_iff, overlaps_iff_not_apart, and_self, not_true_eq_false, not_false_eq_true,
      reduceIte, *]

/-- Settles O21: the chain of R173, and past it the column that elimination answers. -/
theorem invertReportsItsFirstFailingCheck : Obligations.InvertReportsItsFirstFailingCheck := by
  intro s
  dsimp only
  have report {e : CmdError} (h : invertCheck s = some e) := reports_of_check (i := .invert) h
  refine ⟨fun h0 => report (e := ⟨.countRange, 0⟩) ?_, fun h0 hin => report (e := ⟨.addrRange, 1⟩) ?_,
    fun h0 hin hout => report (e := ⟨.addrRange, 2⟩) ?_, fun h0 hin hout hapart => report (e := ⟨.overlap, 0⟩) ?_,
    fun c hruns hc => reports_of_error s (e := ⟨.singularPivot, c⟩) ?singular⟩
  case singular => exact invertRule_singular hruns hc
  all_goals
    simp only [invertCheck, inRange_iff, overlaps_iff_not_apart, and_self, not_true_eq_false, not_false_eq_true,
      reduceIte, *]

/-- Settles O25: the chain of R196, whose region checks report the first region out of range, and past it the column
that elimination answers. -/
theorem deriveReportsItsFirstFailingCheck : Obligations.DeriveReportsItsFirstFailingCheck := by
  intro s
  dsimp only
  have report {e : CmdError} (h : deriveCheck s = some e) := reports_of_check (i := .derive) h
  refine ⟨fun h0 => report (e := ⟨.countRange, 0⟩) ?_, fun h0 h1 => report (e := ⟨.countRange, 1⟩) ?_,
    fun h0 h1 h2 => report (e := ⟨.countRange, 2⟩) ?_, fun h0 h1 h2 h3 => report (e := ⟨.countRange, 3⟩) ?_,
    fun n r hcounts hr hout hbefore => report (e := ⟨.addrRange, 4 + n⟩) ?region,
    fun hcounts hinside hapart => report (e := ⟨.overlap, 0⟩) ?overlap,
    fun hcounts hinside hapart hconsistent => report (e := ⟨.erasureInconsistent, 0⟩) ?descriptor,
    fun c hruns hc => reports_of_error s (e := ⟨.singularPivot, c⟩) ?singular⟩
  case region => rw [deriveCheck_of_counts hcounts, regionChecks_of_first 4 hr hout hbefore]
  case overlap =>
    rw [deriveCheck_of_counts hcounts, regionChecks_of_inside 4 hinside,
      if_pos ((deriveOverlap_iff_not_apart s).2 hapart)]
  case descriptor =>
    rw [deriveCheck_of_counts hcounts, regionChecks_of_inside 4 hinside,
      if_neg (mt (deriveOverlap_iff_not_apart s).1 (not_not.2 hapart)), if_pos (mt (consistent_iff s).1 hconsistent)]
  case singular => exact deriveRule_singular hruns hc
  all_goals simp only [deriveCheck, and_self, not_true_eq_false, not_false_eq_true, reduceIte, *]

/-- Settles O30: the chain of R221, with the first pointer entry whose buffer is out of range. -/
theorem dotpReportsItsFirstFailingCheck : Obligations.DotpReportsItsFirstFailingCheck := by
  intro s
  dsimp only
  have report {e : CmdError} (h : dotpCheck s = some e) := reports_of_check (i := .dotp) h
  refine ⟨fun h0 => report (e := ⟨.countRange, 0⟩) (if_pos (by omega)),
    fun h0 h1 => report (e := ⟨.countRange, 1⟩) ?_,
    fun h0 h1 htbl => report (e := ⟨.addrRange, 2⟩) ?_,
    fun h0 h1 htbl hsrcv => report (e := ⟨.addrRange, 3⟩) ?_,
    fun h0 h1 htbl hsrcv hdest => report (e := ⟨.addrRange, 4⟩) ?_,
    fun i hi hdirect hout hbefore => report (e := ⟨.srcPtrRange, i⟩) ?source,
    fun hdirect hin hapart => report (e := ⟨.overlap, 0⟩) ?overlap⟩
  case source =>
    obtain ⟨h0, h1, htbl, hsrcv, hdest⟩ := hdirect
    simp only [dotpCheck, inRange_iff, firstOutside_eq_some hi hout hbefore, and_self, not_true_eq_false, reduceIte, *]
  case overlap =>
    obtain ⟨h0, h1, htbl, hsrcv, hdest⟩ := hdirect
    simp only [dotpCheck, inRange_iff, (firstOutside_eq_none_iff s _ _ _).2 hin, dotpOverlap_iff_not_apart, and_self,
      not_true_eq_false, not_false_eq_true, reduceIte, *]
  all_goals
    simp only [dotpCheck, inRange_iff, and_self, not_true_eq_false, not_false_eq_true, reduceIte, *]

/-- Settles O32: the chain of R220, with the first pointer entry, of the sources and then of the destinations, whose
buffer is out of range. -/
theorem encodeReportsItsFirstFailingCheck : Obligations.EncodeReportsItsFirstFailingCheck := by
  intro s
  dsimp only
  have report {e : CmdError} (h : encodeCheck s = some e) := reports_of_check (i := .encode) h
  refine ⟨fun h0 => report (e := ⟨.countRange, 0⟩) (if_pos (by omega)),
    fun h0 h1 => report (e := ⟨.countRange, 1⟩) ?_,
    fun h0 h1 h2 => report (e := ⟨.countRange, 2⟩) ?_,
    fun h0 h1 h2 htbl => report (e := ⟨.addrRange, 3⟩) ?_,
    fun h0 h1 h2 htbl hsrcv => report (e := ⟨.addrRange, 4⟩) ?_,
    fun h0 h1 h2 htbl hsrcv hdestv => report (e := ⟨.addrRange, 5⟩) ?_,
    fun i hi hdirect hout hbefore => report (e := ⟨.srcPtrRange, i⟩) ?source,
    fun j hj hdirect hin hout hbefore => report (e := ⟨.destPtrRange, j⟩) ?dest,
    fun hdirect hin hout hapart => report (e := ⟨.overlap, 0⟩) ?overlap⟩
  case source =>
    obtain ⟨h0, h1, h2, htbl, hsrcv, hdestv⟩ := hdirect
    simp only [encodeCheck, inRange_iff, firstOutside_eq_some hi hout hbefore, and_self, not_true_eq_false, reduceIte,
      *]
  case dest =>
    obtain ⟨h0, h1, h2, htbl, hsrcv, hdestv⟩ := hdirect
    simp only [encodeCheck, inRange_iff, (firstOutside_eq_none_iff s _ _ _).2 hin, firstOutside_eq_some hj hout hbefore,
      and_self, not_true_eq_false, reduceIte, *]
  case overlap =>
    obtain ⟨h0, h1, h2, htbl, hsrcv, hdestv⟩ := hdirect
    simp only [encodeCheck, inRange_iff, (firstOutside_eq_none_iff s _ _ _).2 hin,
      (firstOutside_eq_none_iff s _ _ _).2 hout, encodeOverlap_iff_not_apart, and_self, not_true_eq_false,
      not_false_eq_true, reduceIte, *]
  all_goals simp only [encodeCheck, inRange_iff, and_self, not_true_eq_false, not_false_eq_true, reduceIte, *]

end Sys2Proof.Machine
end

section
/-! PROOFS. Completions with OK (R271): when the rule of each block command ends so, which regions it stores to, and the
bytes it leaves there (R152, R173, R196, R220, R221). -/

namespace Sys2Proof.Machine

/-! ## Runs of bytes and matrices in memory -/

theorem has_of_mem_cellsAt {a : Nat} {bytes : List Byte} {c : Host.Cell} (h : c ∈ cellsAt a bytes) :
    (Region.mk a bytes.length).Has c.1 := by
  obtain ⟨t, ht, rfl⟩ := mem_cellsAt.1 h
  exact ⟨Nat.le_add_right .., Nat.add_lt_add_left ht _⟩

/-- The bytes of a row-major matrix (R77). -/
def matrixBytes (rows cols : Nat) (f : Nat → Nat → Byte) : List Byte :=
  (List.range rows).flatMap fun r => (List.range cols).map (f r)

section
variable {rows cols : Nat} (f : Nat → Nat → Byte)

theorem length_matrixBytes : (matrixBytes rows cols f).length = rows * cols := by
  rw [Nat.mul_comm]
  exact length_flatMap_range fun r _ => by rw [List.length_map, List.length_range]

/-- The rows of a matrix in memory are one run of bytes. -/
theorem matrixCells_matrixOf (a : Nat) :
    matrixCells a cols (matrixOf rows cols f) = cellsAt a (matrixBytes rows cols f) := by
  have hlen : ∀ r < rows, ((List.range cols).map (f r)).length = cols := fun r _ => by
    rw [List.length_map, List.length_range]
  rw [matrixBytes, ← flatMap_cellsAt a hlen, matrixCells, length_matrixOf]
  refine List.flatMap_congr fun r hr => ?_
  rw [getD_matrixOf cols f (List.mem_range.1 hr), Nat.mul_comm]

/-- Element `(r, c)` stands `r` rows and `c` bytes after the base (R77). -/
theorem mem_matrixCells (a : Nat) {r c : Nat} (hr : r < rows) (hc : c < cols) :
    (a + r * cols + c, f r c) ∈ matrixCells a cols (matrixOf rows cols f) := by
  refine List.mem_flatMap.2 ⟨r, List.mem_range.2 (by rwa [length_matrixOf]), ?_⟩
  rw [getD_matrixOf cols f hr]
  exact mem_cellsAt.2 ⟨c, by simpa using hc, by simp⟩

end

/-! ## When a rule ends with OK -/

section
variable {i : Instr} {s : State} {e : Effect}

theorem exec_of_commandRule_eq_ok (h : commandRule i s = .ok e) : exec i s = .next (s.completeOk e) := by
  rw [exec_eq_complete, h]
  rfl

theorem expandRule_eq_ok_iff : commandRule .expand s = .ok e ↔ ExpandRuns s ∧ e = ⟨none, expandStores s⟩ := by
  rw [commandRule, expandRule, ← expandCheck_eq_none_iff]
  cases expandCheck s <;> simp [eq_comm]

theorem invertRule_eq_ok_iff : commandRule .invert s = .ok e ↔ InvertRuns s ∧
    ∃ x, gjInvert (s.readMatrix (s.addr 1) (s.u32 0) (s.u32 0)) (s.u32 0) = .ok x ∧
      e = ⟨none, matrixCells (s.addr 2) (s.u32 0) x⟩ := by
  rw [commandRule, invertRule, ← invertCheck_eq_none_iff]
  cases invertCheck s with
  | some => simp
  | none => cases hx : gjInvert (s.readMatrix (s.addr 1) (s.u32 0) (s.u32 0)) (s.u32 0) <;> simp [hx, eq_comm]

theorem deriveRule_eq_ok_iff : commandRule .derive s = .ok e ↔ DeriveRuns s ∧
    ∃ binv, gjInvert (selectionMatrix s) (s.u32 0) = .ok binv ∧ e = ⟨none, deriveStores s binv⟩ := by
  rw [commandRule, deriveRule, ← deriveCheck_eq_none_iff]
  cases deriveCheck s with
  | some => simp
  | none => cases gjInvert (selectionMatrix s) (s.u32 0) <;> simp [eq_comm]

theorem dotpRule_eq_ok_iff : commandRule .dotp s = .ok e ↔ DotpRuns s ∧
    e = ⟨none, cellsAt (s.addr 4) (macRow s (s.addr 2) (s.u32 1) (s.addr 3) (s.u32 0) 0)⟩ := by
  rw [commandRule, dotpRule, ← dotpCheck_eq_none_iff]
  cases dotpCheck s <;> simp [eq_comm]

theorem encodeRule_eq_ok_iff : commandRule .encode s = .ok e ↔ EncodeRuns s ∧ e = ⟨none, encodeStores s⟩ := by
  rw [commandRule, encodeRule, ← encodeCheck_eq_none_iff]
  cases encodeCheck s <;> simp [eq_comm]

/-! ## What elimination leaves to store -/

theorem exists_matrixOf_of_gjInvert_eq_ok {n : Nat} {m : Nat → Nat → Byte} {x : ByteMatrix}
    (h : gjInvert (matrixOf n n m) n = .ok x) : ∃ g, x = matrixOf n n g := by
  obtain ⟨f, g, hg, -⟩ | ⟨c, f, g, herror, -⟩ := gjInvert_cases n m
  · exact ⟨g, Except.ok.inj (h.symm.trans hg)⟩
  · cases herror.symm.trans h

/-- Element `(p, t)` of the decode matrix: row `S[p]` of the inverse for a missing source (R194), that row of the encode
matrix times the inverse for a missing parity (R195). -/
def decodeEntry (s : State) (binv : ByteMatrix) (p t : Nat) : Byte :=
  if p < s.u32 3 then entry binv ((deriveDescriptor s).missing p) t
  else xorSum (s.u32 0) fun j =>
    gmul (s.readByte (s.addr 4 + (deriveDescriptor s).missing p * s.u32 0 + j)) (entry binv j t)

/-- The decode index (R192). -/
def decodeIndex (s : State) : List Byte := (deriveDescriptor s).selection.map (BitVec.ofNat 8)

theorem deriveStores_eq (s : State) (binv : ByteMatrix) :
    deriveStores s binv =
      matrixCells (s.addr 7) (s.u32 0) (matrixOf (s.u32 2) (s.u32 0) (decodeEntry s binv)) ++
        cellsAt (s.addr 8) (decodeIndex s) := rfl

theorem length_decodeIndex (h : DeriveRuns s) : (decodeIndex s).length = s.u32 0 := by
  rw [decodeIndex, List.length_map, length_selection h]

/-! ## The output regions -/

/-- The regions a command may write to; a scalar command has none. -/
def commandOutputs : Instr → State → List Region
  | .expand, s => [⟨s.addr 3, 32 * s.u32 0 * s.u32 1⟩]
  | .invert, s => [⟨s.addr 2, s.u32 0 * s.u32 0⟩]
  | .derive, s => deriveOutputs s
  | .dotp, s => [⟨s.addr 4, s.u32 0⟩]
  | .encode, s => (List.range (s.u32 2)).map (encodeOutput s)
  | .gfMul, _ | .gfDiv, _ | .gfInv, _ => []

/-- The rule of a scalar command that ends with OK gives a byte for RESULT. -/
theorem eq_scalarEffect_of_commandRule (hi : i ∈ [Instr.gfMul, .gfDiv, .gfInv]) (h : commandRule i s = .ok e) :
    ∃ r, e = scalarEffect r := by
  cases i with
  | gfMul => exact ⟨_, (Except.ok.inj h).symm⟩
  | gfDiv =>
    by_cases hz : s.u8 1 = 0#8
    · cases (gfDivRule_of_eq_zero hz).symm.trans h
    · exact ⟨_, Except.ok.inj (h.symm.trans (gfDivRule_of_ne_zero hz))⟩
  | gfInv =>
    by_cases hz : s.u8 0 = 0#8
    · cases (gfInvRule_of_eq_zero hz).symm.trans h
    · exact ⟨_, Except.ok.inj (h.symm.trans (gfInvRule_of_ne_zero hz))⟩
  | expand | invert | derive | dotp | encode => simp at hi

/-- A command's rule stores to its output regions only. -/
theorem exists_output_of_mem_stores (h : commandRule i s = .ok e) {c : Host.Cell} (hc : c ∈ e.stores) :
    ∃ r ∈ commandOutputs i s, r.Has c.1 := by
  cases i with
  | gfMul | gfDiv | gfInv =>
    obtain ⟨r, rfl⟩ := eq_scalarEffect_of_commandRule (by simp) h
    cases hc
  | expand =>
    obtain ⟨-, rfl⟩ := expandRule_eq_ok_iff.1 h
    rw [expandStores_eq] at hc
    exact ⟨_, List.mem_singleton_self _, length_expandBytes s ▸ has_of_mem_cellsAt hc⟩
  | invert =>
    obtain ⟨-, x, hx, rfl⟩ := invertRule_eq_ok_iff.1 h
    obtain ⟨g, rfl⟩ := exists_matrixOf_of_gjInvert_eq_ok hx
    rw [matrixCells_matrixOf] at hc
    exact ⟨_, List.mem_singleton_self _, length_matrixBytes g ▸ has_of_mem_cellsAt hc⟩
  | derive =>
    obtain ⟨hruns, binv, -, rfl⟩ := deriveRule_eq_ok_iff.1 h
    rw [deriveStores_eq, matrixCells_matrixOf] at hc
    obtain hc | hc := List.mem_append.1 hc
    · exact ⟨_, List.mem_cons_self, length_matrixBytes (decodeEntry s binv) ▸ has_of_mem_cellsAt hc⟩
    · exact ⟨_, List.mem_cons_of_mem _ List.mem_cons_self, length_decodeIndex hruns ▸ has_of_mem_cellsAt hc⟩
  | dotp =>
    obtain ⟨-, rfl⟩ := dotpRule_eq_ok_iff.1 h
    have hhas := has_of_mem_cellsAt hc
    rw [length_macRow] at hhas
    exact ⟨_, List.mem_singleton_self _, hhas⟩
  | encode =>
    obtain ⟨-, rfl⟩ := encodeRule_eq_ok_iff.1 h
    obtain ⟨j, hj, hc⟩ := List.mem_flatMap.1 hc
    have hhas := has_of_mem_cellsAt hc
    rw [length_macRow] at hhas
    exact ⟨_, List.mem_map_of_mem hj, hhas⟩

/-- A command that completes with OK leaves every byte outside its output regions (R271). -/
theorem readByte_completeOk_outside (h : commandRule i s = .ok e) {a : Nat}
    (ha : ∀ r ∈ commandOutputs i s, ¬r.Has a) : (s.completeOk e).readByte a = s.readByte a := by
  refine readByte_completeOk_other s e a fun c hc heq => ?_
  obtain ⟨r, hr, hhas⟩ := exists_output_of_mem_stores h hc
  exact ha r hr (heq ▸ hhas)

/-- The output regions of a command that ends with OK are in range. -/
theorem outputs_inside (h : commandRule i s = .ok e) : ∀ r ∈ commandOutputs i s, r.Inside s.cfg := by
  cases i with
  | gfMul | gfDiv | gfInv => exact List.forall_mem_nil _
  | expand =>
    obtain ⟨⟨-, -, -, htbl, -⟩, -⟩ := expandRule_eq_ok_iff.1 h
    exact List.forall_mem_singleton.2 htbl
  | invert =>
    obtain ⟨⟨-, -, hout, -⟩, -⟩ := invertRule_eq_ok_iff.1 h
    exact List.forall_mem_singleton.2 hout
  | derive =>
    obtain ⟨⟨-, hinside, -⟩, -⟩ := deriveRule_eq_ok_iff.1 h
    exact fun r hr => hinside r (List.mem_append_right _ hr)
  | dotp =>
    obtain ⟨⟨⟨-, -, -, -, hdest⟩, -⟩, -⟩ := dotpRule_eq_ok_iff.1 h
    exact List.forall_mem_singleton.2 hdest
  | encode =>
    obtain ⟨⟨-, -, hout, -⟩, -⟩ := encodeRule_eq_ok_iff.1 h
    exact List.forall_mem_map.2 fun j hj => hout j (List.mem_range.1 hj)

end

/-! ## DERIVE (R194 to R196) -/

section
variable {s : State} {binv : ByteMatrix}

theorem deriveStores_distinct (h : DeriveRuns s) : (deriveStores s binv).Pairwise fun x y => x.1 ≠ y.1 := by
  obtain ⟨-, -, ⟨-, hapart⟩, -⟩ := id h
  rw [deriveStores_eq, matrixCells_matrixOf]
  refine List.pairwise_append.2 ⟨cellsAt_distinct _ _, cellsAt_distinct _ _, fun x hx y hy heq => ?_⟩
  have hdec := length_matrixBytes (decodeEntry s binv) ▸ has_of_mem_cellsAt hx
  have hidx := length_decodeIndex h ▸ has_of_mem_cellsAt hy
  exact hapart x.1 hdec (heq ▸ hidx)

/-- After DERIVE, element `(p, q)` of `dec` is that of the decode matrix. -/
theorem readByte_decodeMatrix (h : DeriveRuns s) {p q : Nat} (hp : p < s.u32 2) (hq : q < s.u32 0) :
    (s.completeOk ⟨none, deriveStores s binv⟩).readByte (s.addr 7 + p * s.u32 0 + q) = decodeEntry s binv p q :=
  readByte_completeOk_stored s ⟨none, deriveStores s binv⟩ _
    (List.mem_append_left _ (mem_matrixCells (decodeEntry s binv) _ hp hq)) (deriveStores_distinct h)

end

/-! ## The statements -/

/-- Settles O17: the stores are the entries of the matrix bytes, one run of the table's length. -/
theorem expandWritesTheTable : Obligations.ExpandWritesTheTable := by
  intro s hruns
  have hrule := expandRule_eq_ok_iff.2 ⟨hruns, rfl⟩
  refine ⟨_, exec_of_commandRule_eq_ok hrule, rfl, fun j hj i hi n hn => ?products,
    fun a ha => readByte_completeOk_outside hrule (List.forall_mem_singleton.2 ha)⟩
  have hdistinct : (expandStores s).Pairwise fun x y => x.1 ≠ y.1 := by
    rw [expandStores_eq]
    exact cellsAt_distinct _ _
  have hentry {t : Nat} (ht : t < 32) :
      (s.completeOk ⟨none, expandStores s⟩).readByte (s.addr 3 + 32 * (j * s.u32 0 + i) + t) =
        (tableEntry (s.readByte (s.addr 2 + j * s.u32 0 + i))).getD t 0#8 := by
    have hlen : t < (tableEntry (s.readByte (s.addr 2 + j * s.u32 0 + i))).length := by rwa [length_tableEntry]
    rw [List.getD_eq_getElem _ _ hlen]
    exact readByte_completeOk_stored s ⟨none, expandStores s⟩ (_, _) (List.mem_flatMap.2 ⟨j, List.mem_range.2 hj,
      List.mem_flatMap.2 ⟨i, List.mem_range.2 hi, mem_cellsAt.2 ⟨t, hlen, rfl⟩⟩⟩) hdistinct
  rw [Nat.add_assoc _ 16 n, hentry (by omega), hentry (by omega)]
  exact ⟨tableEntry_low _ hn, tableEntry_high _ hn⟩

/-- Settles O20: the stores are the rows of the matrix elimination gives. -/
theorem invertWritesTheEliminationResult : Obligations.InvertWritesTheEliminationResult := by
  intro s x hruns hx
  have hrule := invertRule_eq_ok_iff.2 ⟨hruns, x, hx, rfl⟩
  refine ⟨_, exec_of_commandRule_eq_ok hrule, rfl, fun r hr c hc => ?elements,
    fun a ha => readByte_completeOk_outside hrule (List.forall_mem_singleton.2 ha)⟩
  obtain ⟨g, rfl⟩ := exists_matrixOf_of_gjInvert_eq_ok hx
  rw [entry_matrixOf g hr hc]
  refine readByte_completeOk_stored s _ (_, _) (mem_matrixCells g _ hr hc) ?_
  rw [matrixCells_matrixOf]
  exact cellsAt_distinct _ _

/-- Settles O24: `dec` and `idx` are apart, so both are read back as stored. -/
theorem deriveWritesTheDecodeMatrix : Obligations.DeriveWritesTheDecodeMatrix := by
  intro s binv hruns hbinv
  have hrule := deriveRule_eq_ok_iff.2 ⟨hruns, binv, hbinv, rfl⟩
  refine ⟨_, exec_of_commandRule_eq_ok hrule, rfl, fun p hp q hq => ?decode, fun q hq => ?index,
    fun a ha => readByte_completeOk_outside hrule ha⟩
  case decode => rw [readByte_decodeMatrix hruns hp hq, decodeEntry, missing_deriveDescriptor hp]
  case index =>
    have hsel : q < (deriveDescriptor s).selection.length := by rwa [length_selection hruns]
    rw [deriveStores_eq, readByte_completeOk_append_cellsAt _ _ _ _ _ (by rwa [length_decodeIndex hruns]),
      List.getD_eq_getElem _ _ hsel]
    exact List.getElem_map _

/-- Settles O29: the one output row is lane row 0 of a one-row table. -/
theorem dotpWritesTheDotProduct : Obligations.DotpWritesTheDotProduct := by
  intro s hruns
  have hrule := dotpRule_eq_ok_iff.2 ⟨hruns, rfl⟩
  refine ⟨_, exec_of_commandRule_eq_ok hrule, rfl, fun pos hpos => ?lane,
    fun a ha => readByte_completeOk_outside hrule (List.forall_mem_singleton.2 ha)⟩
  rw [readByte_completeOk_cellsAt _ _ _ _ (by rwa [length_macRow])]
  simp only [macRow, List.getElem_map, List.getElem_range, macByte, xorSum, Nat.zero_mul, Nat.zero_add]

/-- Settles O31: the outputs are apart, so each lane is read back. -/
theorem encodeWritesEveryOutput : Obligations.EncodeWritesEveryOutput := by
  intro s hruns
  have hrule := encodeRule_eq_ok_iff.2 ⟨hruns, rfl⟩
  obtain ⟨-, -, -, hapart⟩ := hruns
  exact ⟨_, exec_of_commandRule_eq_ok hrule, rfl, fun j hj pos hpos => readByte_encodeOutput hapart hj hpos,
    fun a ha => readByte_completeOk_outside hrule (List.forall_mem_map.2 fun j hj => ha j (List.mem_range.1 hj))⟩

/-- Settles O34: a lane is computed from its row of the table and the input bytes at its position alone. -/
theorem encodeLanesAreIndependent : Obligations.EncodeLanesAreIndependent := by
  intro s s' t t' hruns hruns' hsrcs ht ht' j hj j' hj' pos hpos pos' hpos' htable hinput
  rw [exec_encode_of_runs hruns] at ht
  rw [exec_encode_of_runs hruns'] at ht'
  cases ht
  cases ht'
  obtain ⟨-, -, -, hapart⟩ := hruns
  obtain ⟨-, -, -, hapart'⟩ := hruns'
  rw [readByte_encodeOutput hapart hj hpos, readByte_encodeOutput hapart' hj' hpos', ← hsrcs]
  refine xorSum_congr fun i hi => congrArg₂ tmul (List.map_congr_left fun n hn => ?_) (hinput i hi)
  have hn : n < 32 := List.mem_range.1 hn
  have hentry := htable (32 * i + n) (by omega)
  rw [← hsrcs] at hentry
  simpa only [Nat.mul_add, Nat.add_assoc] using hentry

end Sys2Proof.Machine
end

section
/-! PROOFS. What every command's completion does (R270 to R272): it is the effect of its rule, or an error listed with
the command, and nothing else changes. -/

namespace Sys2Proof.Machine

/-! ## The errors of a command (R270) -/

/-- R270 lists the error with the command, with that INDEX where it fixes one. -/
def mayReport (i : Instr) (e : CmdError) : Bool :=
  match e.cause with
  | .none | .illegalCommand => false
  | .zeroOperand => i = .gfInv ∧ e.index = 0 ∨ i = .gfDiv ∧ e.index = 1
  | .singularPivot => i ∈ [Instr.invert, .derive]
  | .countRange | .addrRange => i ∈ [Instr.expand, .invert, .derive, .dotp, .encode]
  | .srcPtrRange => i ∈ [Instr.dotp, .encode]
  | .destPtrRange => i = .encode
  | .overlap => e.index = 0 ∧ i ∈ [Instr.expand, .invert, .derive, .dotp, .encode]
  | .erasureInconsistent => e.index = 0 ∧ i = .derive

/-- What holds of each error of a chain of checks holds of the one it finds (R273). -/
theorem forall_mem_firstFailing {P : CmdError → Prop} {p : Prop} [Decidable p] {e : CmdError}
    {rest : Option CmdError} (he : P e) (hrest : ∀ e' ∈ rest, P e') : ∀ e' ∈ if p then some e else rest, P e' := by
  split
  · rintro _ ⟨⟩
    exact he
  · exact hrest

section
variable {i : Instr} {s t : State} {e : CmdError}

theorem mayReport_of_check (i : Instr) (s : State) : ∀ e ∈ commandCheck i s, mayReport i e = true := by
  cases i with
  | gfMul | gfDiv | gfInv => rintro _ ⟨⟩
  | expand =>
    show ∀ e ∈ expandCheck s, mayReport .expand e = true
    unfold expandCheck
    iterate 5 refine forall_mem_firstFailing (by rfl) ?_
    rintro _ ⟨⟩
  | invert =>
    show ∀ e ∈ invertCheck s, mayReport .invert e = true
    unfold invertCheck
    iterate 4 refine forall_mem_firstFailing (by rfl) ?_
    rintro _ ⟨⟩
  | derive =>
    show ∀ e ∈ deriveCheck s, mayReport .derive e = true
    unfold deriveCheck
    iterate 11 refine forall_mem_firstFailing (by rfl) ?_
    rintro _ ⟨⟩
  | dotp =>
    show ∀ e ∈ dotpCheck s, mayReport .dotp e = true
    unfold dotpCheck
    iterate 5 refine forall_mem_firstFailing (by rfl) ?_
    split
    · rintro _ ⟨⟩
      rfl
    · refine forall_mem_firstFailing (by rfl) ?_
      rintro _ ⟨⟩
  | encode =>
    show ∀ e ∈ encodeCheck s, mayReport .encode e = true
    unfold encodeCheck
    iterate 6 refine forall_mem_firstFailing (by rfl) ?_
    split
    · rintro _ ⟨⟩
      rfl
    · split
      · rintro _ ⟨⟩
        rfl
      · refine forall_mem_firstFailing (by rfl) ?_
        rintro _ ⟨⟩

/-- A rule ends only with an error listed with its command. -/
theorem mayReport_of_commandRule (h : commandRule i s = .error e) : mayReport i e = true := by
  cases hc : commandCheck i s with
  | some e' =>
    obtain rfl : e' = e := Except.error.inj ((commandRule_of_check hc).symm.trans h)
    exact mayReport_of_check i s e' hc
  | none =>
    cases i with
    | gfMul => cases h
    | gfDiv =>
      by_cases hz : s.u8 1 = 0#8
      · cases (gfDivRule_of_eq_zero hz).symm.trans h
        rfl
      · cases (gfDivRule_of_ne_zero hz).symm.trans h
    | gfInv =>
      by_cases hz : s.u8 0 = 0#8
      · cases (gfInvRule_of_eq_zero hz).symm.trans h
        rfl
      · cases (gfInvRule_of_ne_zero hz).symm.trans h
    | expand => cases (expandRule_eq_ok_iff.2 ⟨(expandCheck_eq_none_iff s).1 hc, rfl⟩).symm.trans h
    | dotp => cases (dotpRule_eq_ok_iff.2 ⟨(dotpCheck_eq_none_iff s).1 hc, rfl⟩).symm.trans h
    | encode => cases (encodeRule_eq_ok_iff.2 ⟨(encodeCheck_eq_none_iff s).1 hc, rfl⟩).symm.trans h
    | invert =>
      have hruns := (invertCheck_eq_none_iff s).1 hc
      cases hx : gjInvert (s.readMatrix (s.addr 1) (s.u32 0) (s.u32 0)) (s.u32 0) with
      | ok x => cases (invertRule_eq_ok_iff.2 ⟨hruns, x, hx, rfl⟩).symm.trans h
      | error c =>
        cases (invertRule_singular hruns hx).symm.trans h
        rfl
    | derive =>
      have hruns := (deriveCheck_eq_none_iff s).1 hc
      cases hx : gjInvert (selectionMatrix s) (s.u32 0) with
      | ok x => cases (deriveRule_eq_ok_iff.2 ⟨hruns, x, hx, rfl⟩).symm.trans h
      | error c =>
        cases (deriveRule_singular hruns hx).symm.trans h
        rfl

theorem cause_ne_none_of_commandRule (h : commandRule i s = .error e) : e.cause ≠ .none := by
  have hmay := mayReport_of_commandRule h
  intro hnone
  simp [mayReport, hnone] at hmay

theorem cause_err_ne_ok {c : Cause} (h : c ≠ .none) : c.err ≠ .ok := by
  revert h
  cases c <;> decide

/-- A completion with ERR = OK is the effect of the command's rule. -/
theorem eq_completeOk_of_exec (h : exec i s = .next t) (hok : t.err = .ok) :
    ∃ e, commandRule i s = .ok e ∧ t = s.completeOk e := by
  obtain hcase | ⟨e, he, rfl⟩ := exec_cases h
  · exact hcase
  · exact absurd hok (cause_err_ne_ok (cause_ne_none_of_commandRule he))

/-! ## The bytes a command writes -/

/-- A byte a command stores lies in the operand memory, as its output region does (R72). -/
theorem stores_inside {e : Effect} (h : commandRule i s = .ok e) : ∀ c ∈ e.stores, c.1 < s.cfg.memBytes := by
  intro c hc
  obtain ⟨r, hr, hlo, hhi⟩ := exists_output_of_mem_stores h hc
  obtain hempty | hend := outputs_inside h r hr
  · omega
  · omega

/-- A block command gives no byte for RESULT (R39). -/
theorem result_eq_none_of_commandRule {e : Effect} (hi : i ∉ [Instr.gfMul, .gfDiv, .gfInv])
    (h : commandRule i s = .ok e) : e.result = none := by
  cases i with
  | gfMul | gfDiv | gfInv => simp at hi
  | expand =>
    obtain ⟨-, rfl⟩ := expandRule_eq_ok_iff.1 h
    rfl
  | invert =>
    obtain ⟨-, x, -, rfl⟩ := invertRule_eq_ok_iff.1 h
    rfl
  | derive =>
    obtain ⟨-, x, -, rfl⟩ := deriveRule_eq_ok_iff.1 h
    rfl
  | dotp =>
    obtain ⟨-, rfl⟩ := dotpRule_eq_ok_iff.1 h
    rfl
  | encode =>
    obtain ⟨-, rfl⟩ := encodeRule_eq_ok_iff.1 h
    rfl

end

/-! ## The statements -/

/-- Settles O35: a completion with an error is `State.raise`, which leaves memory and RESULT. -/
theorem failedCommandLeavesMemoryAndResult : Obligations.FailedCommandLeavesMemoryAndResult := by
  intro i s t h hfail
  obtain ⟨e, -, rfl⟩ | ⟨e, -, rfl⟩ := exec_cases h
  · exact absurd rfl hfail
  · exact ⟨rfl, rfl⟩

/-- Settles O36: a completion is the effect of the command's rule or its error. -/
theorem completionChangesNothingElse : Obligations.CompletionChangesNothingElse := by
  intro i s
  refine ⟨_, exec_eq_complete i s, ?_⟩
  cases h : commandRule i s with
  | error e => exact ⟨rfl, fun _ _ => rfl, fun _ => nofun, fun _ => rfl, fun _ => rfl⟩
  | ok e =>
    refine ⟨rfl, fun _ => nofun, fun e' he' a ha => ?frame, fun hi => ?scalar, fun hi => ?block⟩
    case frame =>
      cases he'
      exact readByte_completeOk_other s e a ha
    case scalar =>
      obtain ⟨r, rfl⟩ := eq_scalarEffect_of_commandRule hi h
      rfl
    case block =>
      show e.result.getD s.result = s.result
      rw [result_eq_none_of_commandRule hi h, Option.getD_none]

/-- Settles O37: an error is one that R270 lists with the command, and the registers read its numbers. -/
theorem commandsReportOnlyTheirOwnErrors : Obligations.CommandsReportOnlyTheirOwnErrors := by
  intro i s t h
  refine ⟨errInfo_word_reserved _, ?_⟩
  simp only [State.readReg, statusWord_err, errInfo_word_cause, errInfo_word_index]
  obtain ⟨e, -, rfl⟩ | ⟨e, he, rfl⟩ := exec_cases h
  · exact .inl ⟨rfl, rfl, rfl, rfl, rfl⟩
  · have hmay := mayReport_of_commandRule he
    obtain ⟨cause, index⟩ := e
    cases cause with
    | none | illegalCommand => cases hmay
    | zeroOperand =>
      obtain ⟨rfl, rfl⟩ | ⟨rfl, rfl⟩ := of_decide_eq_true hmay
      · exact .inr (.inl ⟨rfl, rfl, ⟨rfl, rfl⟩, .inl ⟨rfl, rfl⟩⟩)
      · exact .inr (.inl ⟨rfl, rfl, ⟨rfl, rfl⟩, .inr ⟨rfl, rfl⟩⟩)
    | overlap | erasureInconsistent =>
      obtain ⟨rfl, hi⟩ := of_decide_eq_true hmay
      simp [Cause.err, ErrCode.code, Cause.code, hi]
    | singularPivot | countRange | addrRange | srcPtrRange | destPtrRange =>
      have hi := of_decide_eq_true hmay
      simp [Cause.err, ErrCode.code, Cause.code, hi]

/-- Settles O38: every store lies in an output region, and these are in range. -/
theorem engineWritesStayInsideMemory : Obligations.EngineWritesStayInsideMemory :=
  fun _ _ _ h => stores_inside h

end Sys2Proof.Machine
end

section
/-! PROOFS. Reconstruction (R197): a decode row is the missing row of the encode matrix times the inverse of the
selected rows, so applied to the selected coded bytes it gives the missing one. -/

namespace Sys2Proof.Machine

open Matrix

/-! ## Sums over the field -/

/-- A unit row picks its element. -/
theorem xorSum_unit_row {n r : Nat} (hr : r < n) (v : Nat → Byte) :
    xorSum n (fun j => gmul (if r = j then 1#8 else 0#8) (v j)) = v r :=
  residue_injective (by simp [residue_xorSum, residue_ite, hr])

/-- A row times the inverse `g` of `f`, applied to `f` times `x`, is the row applied to `x`. -/
theorem xorSum_inverseOf {n : Nat} {f g : Nat → Nat → Byte} (h : InverseOf n f g) (e x : Nat → Byte) :
    xorSum n (fun q => gmul (xorSum n fun j => gmul (e j) (g j q)) (xorSum n fun j => gmul (f q j) (x j))) =
      xorSum n fun j => gmul (e j) (x j) := by
  let row : Fin n → Residue := fun j => residue (e j)
  let data : Fin n → Residue := fun j => residue (x j)
  have hsum : (row ᵥ* residueMatrix n g) ⬝ᵥ (residueMatrix n f *ᵥ data) = row ⬝ᵥ data := by
    rw [← dotProduct_mulVec, mulVec_mulVec, inverseOf_iff.1 h, one_mulVec]
  refine residue_injective ?_
  simp only [residue_xorSum, residue_gmul, Finset.sum_range]
  exact hsum

/-! ## The missing sources (R190) -/

section
variable {s : State}

theorem sparseAt_le (h : DescriptorConsistent s) {p p' : Nat} (hle : p ≤ p') (hp' : p' < s.u32 2) :
    sparseAt s p ≤ sparseAt s p' := by
  obtain ⟨-, hascending, -⟩ := h
  induction p', hle using Nat.le_induction with
  | base => exact le_rfl
  | succ q hq ih => exact (ih (by omega)).trans (hascending q (by omega)).le

/-- The first `n_src_err` missing rows are sources: the list ascends, and that many of it lie below `k`. -/
theorem sparseAt_lt_of_source (h : DescriptorConsistent s) {p : Nat} (hp : p < s.u32 2) (hsrc : p < s.u32 3) :
    sparseAt s p < s.u32 0 := by
  by_contra hge
  obtain ⟨-, -, -, -, -, hcount⟩ := id h
  obtain ⟨m, hm⟩ := Nat.exists_eq_add_of_le hp.le
  have hlate : ((List.range m).map (p + ·)).countP (fun q => sparseAt s q < s.u32 0) = 0 := by
    refine List.countP_eq_zero.2 fun q hq => ?_
    obtain ⟨d, hd, rfl⟩ := List.mem_map.1 hq
    have hd : d < m := List.mem_range.1 hd
    have hle := sparseAt_le h (Nat.le_add_right p d) (by omega)
    simp only [decide_eq_true_eq]
    omega
  have hearly := List.countP_le_length (p := fun q => decide (sparseAt s q < s.u32 0)) (l := List.range p)
  rw [hm, List.range_add, List.countP_append, hlate] at hcount
  rw [List.length_range] at hearly
  omega

/-! ## The selection matrix (R191) -/

/-- Element `(q, t)` of the selected rows of the encode matrix. -/
def selectedEntry (s : State) (q t : Nat) : Byte :=
  s.readByte (s.addr 4 + (deriveDescriptor s).selection.getD q 0 * s.u32 0 + t)

theorem selectionMatrix_eq (h : DeriveRuns s) :
    selectionMatrix s = matrixOf (s.u32 0) (s.u32 0) (selectedEntry s) := by
  refine eq_matrixOf ((List.length_map _).trans (length_selection h)) fun q hq => ?_
  have hsel : q < (deriveDescriptor s).selection.length := by simpa [selectionMatrix] using hq
  simp [selectionMatrix, selectedEntry, List.getD, hsel]

/-- With identity rows on top of the encode matrix, both kinds of decode row are the missing row times the inverse. -/
theorem decodeEntry_eq_xorSum (h : DescriptorConsistent s) {binv : ByteMatrix}
    (htop : ∀ r < s.u32 0, ∀ c < s.u32 0,
      s.readByte (s.addr 4 + r * s.u32 0 + c) = if r = c then 1#8 else 0#8)
    {p : Nat} (hp : p < s.u32 2) (t : Nat) :
    decodeEntry s binv p t = xorSum (s.u32 0) fun j =>
      gmul (s.readByte (s.addr 4 + sparseAt s p * s.u32 0 + j)) (entry binv j t) := by
  rw [decodeEntry, missing_deriveDescriptor hp]
  split
  next hsrc =>
    have hrow := sparseAt_lt_of_source h hp hsrc
    rw [← xorSum_unit_row hrow fun j => entry binv j t]
    exact xorSum_congr fun j hj => by rw [htop _ hrow j hj]
  next => rfl

end

/-- Settles O28: `dec` holds the missing rows times the inverse of the selected rows, and `idx` names the selected
ones. -/
theorem decodeMatrixReconstructsTheMissingRows : Obligations.DecodeMatrixReconstructsTheMissingRows := by
  intro s t hlegal hruns ht hok htop x coded p hp
  obtain ⟨e, hrule, rfl⟩ := eq_completeOk_of_exec ht hok
  obtain ⟨-, binv, hbinv, rfl⟩ := deriveRule_eq_ok_iff.1 hrule
  obtain ⟨-, -, -, hconsistent⟩ := id hruns
  rw [selectionMatrix_eq hruns] at hbinv
  have hinverse := xorSum_inverseOf (inverseOf_of_gjInvert_eq_ok hbinv)
    (fun j => s.readByte (s.addr 4 + sparseAt s p * s.u32 0 + j)) x
  refine (xorSum_congr fun q hq => ?_).trans hinverse
  have hsel : q < (deriveDescriptor s).selection.length := by rwa [length_selection hruns]
  rw [readByte_decodeMatrix hruns hp hq, decodeEntry_eq_xorSum hconsistent htop hp,
    readByte_decodeIndex hlegal hruns ht hok hsel]
  simp only [selectedEntry, List.getD_eq_getElem _ _ hsel, coded]

end Sys2Proof.Machine
end

section
/-! PROOFS. The unique inverse (R132), sample CMD words (R101), and pointer entries as little-endian words (R76,
R79). -/

namespace Sys2Proof.Machine

/-- A little-endian word is the sum of its bytes, each times its weight (R76). -/
theorem read32_toNat (s : State) (a : Nat) :
    (s.read32 a).toNat = (s.readByte a).toNat + 2 ^ 8 * (s.readByte (a + 1)).toNat +
      2 ^ 16 * (s.readByte (a + 2)).toNat + 2 ^ 24 * (s.readByte (a + 3)).toNat := by
  have hor {k x y : Nat} (hx : x < 2 ^ k) : x ||| y <<< k = x + 2 ^ k * y := by
    rw [Nat.or_comm, ← Nat.shiftLeft_add_eq_or_of_lt hx, Nat.shiftLeft_eq, Nat.add_comm, Nat.mul_comm]
  have hshift {k y : Nat} (hk : k ≤ 24) (hy : y < 2 ^ 8) : y <<< k % 2 ^ 32 = y <<< k := by
    refine Nat.mod_eq_of_lt ?_
    rw [Nat.shiftLeft_eq]
    calc y * 2 ^ k < 2 ^ 8 * 2 ^ k := by gcongr
      _ ≤ 2 ^ 8 * 2 ^ 24 := by gcongr; decide
  have h0 : (s.readByte a).toNat < 2 ^ 8 := (s.readByte a).isLt
  have h1 : (s.readByte (a + 1)).toNat < 2 ^ 8 := (s.readByte (a + 1)).isLt
  have h2 : (s.readByte (a + 2)).toNat < 2 ^ 8 := (s.readByte (a + 2)).isLt
  have h3 : (s.readByte (a + 3)).toNat < 2 ^ 8 := (s.readByte (a + 3)).isLt
  simp only [State.read32, BitVec.toNat_or, BitVec.toNat_shiftLeft, BitVec.toNat_setWidth_of_le (show 8 ≤ 32 by decide),
    hshift (show 8 ≤ 24 by decide) h1, hshift (show 16 ≤ 24 by decide) h2, hshift (le_refl 24) h3]
  rw [hor h0, hor (show _ < 2 ^ 16 by omega), hor (show _ < 2 ^ 24 by omega)]

/-- Settles O3: a product of 1 makes the second factor the inverse. -/
theorem inverseIsTheUniqueByteWithProductOne : Obligations.InverseIsTheUniqueByteWithProductOne := by
  refine ⟨fun a ha => ⟨gmul_ginv ha, fun b hb => (ginv_eq_of_gmul_eq_one hb).symm⟩, fun b => ?_⟩
  rw [zero_gmul]
  decide

/-- Settles O8: each sample word is evaluated. -/
theorem sampleWordsDecodeAsTheMapSays : Obligations.SampleWordsDecodeAsTheMapSays := by
  unfold Obligations.SampleWordsDecodeAsTheMapSays
  decide

/-- Settles O40: a pointer entry is a little-endian word. -/
theorem pointerEntriesAreLittleEndian : Obligations.PointerEntriesAreLittleEndian :=
  fun s base n => read32_toNat s (base + 4 * n)

end Sys2Proof.Machine
end

section
/-! PROOFS. CTRL, STATUS, CMD and ARG accesses and POLL (R36 to R41, R107), and a START on a bus that reorders (U20). -/

namespace Sys2Proof.Machine

/-! ## The words of CTRL and STATUS -/

/-- CTRL reads 0 but at bit 2 (R36). -/
theorem ctrlWord_other (s : State) : ∀ n < 32, n ≠ 2 → s.ctrlWord.getLsbD n = false := by
  unfold State.ctrlWord
  cases s.irqEn <;> decide

/-- STATUS bit 3 is reserved and reads 0 (R37). -/
theorem statusWord_bit3 (s : State) : s.statusWord[3] = false := by
  unfold State.statusWord
  generalize s.busy = b, s.done = d, s.overrun = o, s.err = e
  cases b <;> cases d <;> cases o <;> cases e <;> rfl

/-- STATUS bits [31:8] are reserved and read 0 (R37). -/
theorem statusWord_reserved (s : State) : s.statusWord.extractLsb' 8 24 = 0#24 := by
  unfold State.statusWord
  generalize s.busy = b, s.done = d, s.overrun = o, s.err = e
  cases b <;> cases d <;> cases o <;> cases e <;> rfl

/-- The mask 6 keeps bits 1 and 2. -/
theorem and_six (v : Word) :
    v &&& 0x00000006#32 = (BitVec.ofBool v[1]).setWidth 32 <<< 1 ||| (BitVec.ofBool v[2]).setWidth 32 <<< 2 := by
  have hmask : ∀ n < 32, (0x00000006#32).getLsbD n = (decide (n = 1) || decide (n = 2)) := by decide
  have hbit1 : ∀ b : Bool, ∀ n < 32, ((BitVec.ofBool b).setWidth 32 <<< 1).getLsbD n = (b && decide (n = 1)) := by
    decide
  have hbit2 : ∀ b : Bool, ∀ n < 32, ((BitVec.ofBool b).setWidth 32 <<< 2).getLsbD n = (b && decide (n = 2)) := by
    decide
  refine BitVec.eq_of_getLsbD_eq fun n hn => ?_
  rw [BitVec.getLsbD_and, BitVec.getLsbD_or, hmask n hn, hbit1 _ n hn, hbit2 _ n hn]
  by_cases h1 : n = 1
  · subst h1
    simp
  · by_cases h2 : n = 2
    · subst h2
      simp
    · simp [h1, h2]

/-- STATUS after a STATUS write: DONE and OVERRUN cleared where `v` has a 1 (R37). -/
theorem statusWord_writeStatus (s : State) (v : Word) :
    (s.writeStatus v).statusWord = s.statusWord &&& ~~~(v &&& 0x00000006#32) := by
  rw [and_six]
  have hbusy : (s.writeStatus v).busy = s.busy := rfl
  simp only [State.statusWord, hbusy, writeStatus_done, writeStatus_overrun, writeStatus_err]
  generalize s.busy = b, s.done = d, s.overrun = o, v[1] = x, v[2] = y
  revert b d o x y
  cases s.err <;> decide

/-! ## Register writes and POLL -/

section
variable {s : State} {r : Request} {rest : List Request} {v : Word}

theorem writeCmd_idle (h : s.busy = false) : s.writeCmd v = { s with cmd := v } := by simp [State.writeCmd, h]

theorem writeArg_idle (h : s.busy = false) (i : Fin 9) : s.writeArg i v = { s with args := s.args.set i v } := by
  simp [State.writeArg, h]

/-- An ARGi write is read back at ARGi and nowhere else (R41). -/
theorem get_set_args (args : Vector Word 9) (i j : Fin 9) :
    (args.set i v).get j = if j = i then v else args.get j := by
  simp only [Vector.get_eq_getElem, Vector.getElem_set, Fin.val_inj, eq_comm]

theorem perform_cmdWrite_idle (hacc : r.access = .regWrite 4 0x14 v) (hidle : s.busy = false) :
    perform r rest s = .next { s with inputs := rest, cmd := v } :=
  (perform_regWrite_legal hacc (by decide)).trans
    (congrArg Host.Outcome.next (writeCmd_idle (s := { s with inputs := rest }) hidle))

theorem perform_argWrite_idle {i : Fin 9} (hacc : r.access = .regWrite 4 (0x20 + 4 * i.val) v)
    (hidle : s.busy = false) :
    perform r rest s = .next { s with inputs := rest, args := s.args.set i v } := by
  rw [perform_regWrite_legal hacc ⟨rfl, by omega, by omega⟩, regAt_arg]
  exact congrArg Host.Outcome.next (writeArg_idle (s := { s with inputs := rest }) hidle i)

theorem writeInFlight_iff {agent seq : Nat} {pending : List Request} : writeInFlight agent seq pending = true ↔
    ∃ q ∈ pending, q.agent = agent ∧ q.seq < seq ∧ ∃ a b, q.access = .memWrite a b := by
  simp only [writeInFlight, List.any_eq_true]
  refine exists_congr fun q => and_congr_right fun _ => ?_
  cases q.access <;> simp

/-- A START while IDLE with an earlier memory write in flight on a bus that reorders has no step (U20). -/
theorem writeCtrl_start_inFlight {agent seq : Nat} (h1 : v[1] = false) (h0 : v[0] = true) (hb : s.busy = false)
    (ho : s.cfg.hostBusOrdered = false) (hw : writeInFlight agent seq s.inputs = true) :
    s.writeCtrl agent seq v = .refused (.memoryWriteInFlight agent) := by
  have hb' : ({ s with irqEn := v[2] } : State).busy = false := hb
  simp [State.writeCtrl, h1, h0, State.start, hb', ho, hw]

/-- A START while IDLE with no earlier memory write in flight is accepted on any bus (R277). -/
theorem writeCtrl_start_clear {agent seq : Nat} (h1 : v[1] = false) (h0 : v[0] = true) (hb : s.busy = false)
    (hw : writeInFlight agent seq s.inputs = false) :
    s.writeCtrl agent seq v =
      .next (({ s with irqEn := v[2] } : State).drawDelay.acceptStart s.nextDelay) := by
  have hb' : ({ s with irqEn := v[2] } : State).busy = false := hb
  simp [State.writeCtrl, h1, h0, State.start, hb', hw, State.nextDelay]

theorem perform_poll (h : r.access = .poll) :
    perform r rest s =
      .next ((if s.busy then s else { s with inputs := rest }).reply r (.word s.statusWord)) := by
  simp only [perform, h]

end

/-! ## The statements -/

/-- Settles O42: a START while IDLE looks for an earlier memory write of its agent. -/
theorem startOnAReorderingBusNeedsFinishedWrites : Obligations.StartOnAReorderingBusNeedsFinishedWrites := by
  intro s r rest v hacc hreorders hidle h1 h0
  let s' : State := { s with inputs := rest }
  have hctrl : perform r rest s = s'.writeCtrl r.agent r.seq v := perform_regWrite_legal hacc (by decide)
  rw [hctrl]
  refine ⟨fun hw => writeCtrl_start_inFlight (s := s') h1 h0 hidle hreorders (writeInFlight_iff.2 hw), fun hclear => ?_⟩
  have hw : writeInFlight r.agent r.seq s'.inputs = false := by
    refine Bool.eq_false_iff.2 fun hw => ?_
    obtain ⟨q, hq, hagent, hseq, a, b, hwrite⟩ := writeInFlight_iff.1 hw
    exact hclear q hq hagent hseq a b hwrite
  exact ⟨_, writeCtrl_start_clear (s := s') h1 h0 hidle hw, rfl⟩

/-- Settles O44: the bits of CTRL, and the effect of a CMD and of an ARGi write while IDLE. -/
theorem commandRegistersStoreAndReadBack : Obligations.CommandRegistersStoreAndReadBack := by
  refine ⟨fun s => ⟨ctrlWord_irqEn s, ctrlWord_other s⟩, fun s r rest v hidle => ⟨fun hacc => ?cmd, fun i hacc => ?arg⟩⟩
  case cmd => exact ⟨_, perform_cmdWrite_idle hacc hidle, rfl, rfl⟩
  case arg =>
    exact ⟨_, perform_argWrite_idle hacc hidle, (get_set_args _ i i).trans (if_pos rfl),
      fun j hj => (get_set_args _ i j).trans (if_neg hj), rfl⟩

/-- Settles O45: the fields of STATUS, a STATUS write as a mask of its word, and POLL by the phase. -/
theorem statusWriteClearsOnlyDoneAndOverrun : Obligations.StatusWriteClearsOnlyDoneAndOverrun := by
  refine ⟨fun s => ⟨?busy, statusWord_done s, statusWord_overrun s, statusWord_bit3 s, ?err, statusWord_reserved s⟩,
    fun s r rest => ⟨fun v hacc => ?write, fun hacc => ?poll⟩⟩
  case busy => exact (iff_of_eq (congrArg (· = true) (statusWord_busy s))).trans (busy_iff s)
  case err =>
    rw [State.readReg, statusWord_err]
    cases s.err <;> decide
  case write =>
    exact ⟨_, perform_regWrite_legal hacc (by decide), statusWord_writeStatus { s with inputs := rest } v, rfl⟩
  case poll =>
    refine ⟨_, perform_poll hacc, ?_⟩
    rw [State.readReg, statusWord_busy]
    cases s.busy <;> rfl

end Sys2Proof.Machine
end

section
/-! PROOFS. The memory port (R71), the reset input (R310), and the abort of a soft reset (R314). -/

namespace Sys2Proof.Machine

section
variable {s : State} {r : Request} {rest : List Request}

theorem perform_memRead {a : Nat} (h : r.access = .memRead a) :
    perform r rest s =
      onMemoryPort s.cfg a (({ s with inputs := rest } : State).reply r (.byte (s.readByte a))) := by
  simp only [perform, h]

theorem perform_memWrite {a : Nat} {b : Byte} (h : r.access = .memWrite a b) :
    perform r rest s = onMemoryPort s.cfg a (({ s with inputs := rest } : State).hostWrite a b) := by
  simp only [perform, h]

/-- A memory-port access below MEM_BYTES takes effect (R71). -/
theorem onMemoryPort_legal {cfg : Config} {a : Nat} (h : memoryAccessLegal cfg a) (t : State) :
    onMemoryPort cfg a t = .next t := if_pos h

theorem perform_hardReset (h : r.access = .hardReset) :
    perform r rest s = .next ({ s with inputs := rest } : State).hardReset := by
  simp only [perform, h]

/-- An address that none of the aborted command's stores names reads as before. -/
theorem readByte_softReset_busy {l : Latched} {wait a : Nat} (h : s.engine = .busy l wait)
    (ha : ∀ c ∈ s.abortCells (wordRule l.cmd s), c.1 ≠ a) : s.softReset.readByte a = s.readByte a := by
  have hreset : s.softReset = (s.abort (wordRule l.cmd s)).resetRegisters := by simp only [State.softReset, h]
  have hmem : Memory.lookup s.softReset.mem a = Memory.lookup s.mem a := by
    rw [hreset]
    exact lookup_writeAll_other _ _ _ ha
  have hpower : s.softReset.powerOns = s.powerOns := by rw [hreset]; rfl
  simp only [State.readByte, hmem, hpower]

end

/-! ## The statements -/

/-- Settles O49: a read after a write through the memory port. -/
theorem memoryPortWritesOneByteAndReadsItBack : Obligations.MemoryPortWritesOneByteAndReadsItBack := by
  intro s r rest a ha
  refine ⟨fun v hacc => ?write, fun hacc => ?read⟩
  case write =>
    have hread (b : Nat) := readByte_hostWrite { s with inputs := rest } a b v
    exact ⟨_, (perform_memWrite hacc).trans (onMemoryPort_legal ha _), (hread a).trans (if_pos rfl),
      fun b hb => (hread b).trans (if_neg hb.symm), rfl⟩
  case read => exact ⟨_, (perform_memRead hacc).trans (onMemoryPort_legal ha _), rfl⟩

/-- Settles O52: a hard reset lists no byte, so each reads as the free value of that reset. -/
theorem hardResetDrawsTheMemoryAnew : Obligations.HardResetDrawsTheMemoryAnew :=
  ⟨fun _ _ _ hacc => ⟨by rw [hacc]; rfl, perform_hardReset hacc⟩, fun _ _ => ⟨rfl, rfl⟩, rfl⟩

/-- Settles O53: the registers are those of a reset, and the abort stores only where the rule would have. -/
theorem softResetWhileBusyAbortsTheCommand : Obligations.SoftResetWhileBusyAbortsTheCommand := by
  intro s l wait hbusy
  have hreset := resetRegisters_softReset s
  refine ⟨hreset ▸ resetRegisters_engine s.softReset, hreset ▸ resetRegisters_done s.softReset, ?status, ?result,
    fun e he a ha => readByte_softReset_busy hbusy fun c hc => ?ok, fun e he a => readByte_softReset_busy hbusy ?error⟩
  case status => exact hreset ▸ readReg_resetRegisters s.softReset (by decide)
  case result => exact hreset ▸ readReg_resetRegisters s.softReset (by decide)
  case ok =>
    rw [he] at hc
    obtain ⟨d, hd, rfl⟩ := List.mem_map.1 hc
    exact ha d hd
  case error =>
    rw [he]
    exact List.forall_mem_nil _

end Sys2Proof.Machine
end

section
/-! PROOFS. Accesses and completions by the state they lead to: how that state differs from the one before, and that
both keep the machine invariant (R9, R40, R45, R70, R270). -/

namespace Sys2Proof.Machine

/-! ## What an access does to the state -/

/-- The state after an access that took effect, by how it differs from the state before. -/
inductive Performed (r : Request) (rest : List Request) (s : State) : State → Prop
  | hardReset (h : r.access = .hardReset) : Performed r rest s ({ s with inputs := rest } : State).hardReset
  | softReset (v : Word) (h : r.access = .regWrite 4 0x0C v) (hv : v[1] = true) :
    Performed r rest s ({ s with inputs := rest } : State).softReset
  | start (irqEn : Bool) (hidle : s.busy = false) :
    Performed r rest s (({ s with inputs := rest, irqEn := irqEn } : State).drawDelay.acceptStart s.nextDelay)
  | flags (irqEn done overrun : Bool) (hdone : s.done = false → done = false) :
    Performed r rest s { s with inputs := rest, irqEn := irqEn, done := done, overrun := overrun }
  | command (cmd : Word) (args : Vector Word 9) (hidle : s.busy = false) :
    Performed r rest s { s with inputs := rest, cmd := cmd, args := args }
  | memWrite (a : Nat) (v : Byte) (h : r.access = .memWrite a v) (ha : memoryAccessLegal s.cfg a) :
    Performed r rest s (({ s with inputs := rest } : State).hostWrite a v)
  | reply (inputs : List Request) (replies : List Reply) (h : inputs = rest ∨ inputs = s.inputs) :
    Performed r rest s { s with inputs := inputs, replies := replies }

/-- Only offset 0x0C holds CTRL (R32). -/
theorem eq_of_regAt_eq_ctrl {off : Nat} (h : regAt off = .ctrl) : off = 0x0C := by
  unfold regAt at h
  split at h
  case h_4 => rfl
  all_goals cases h

section
variable {r : Request} {rest : List Request} {s t : State}

/-- A register write that took effect is a CTRL write, or changes STATUS flags, CMD or an ARG, or nothing. -/
theorem performed_of_regWrite {size off : Nat} {v : Word} (hacc : r.access = .regWrite size off v)
    (hl : registerAccessLegal size off)
    (h : ({ s with inputs := rest } : State).writeReg r.agent r.seq (regAt off) v = .next t) :
    Performed r rest s t := by
  have hsame : Performed r rest s { s with inputs := rest } := .reply rest s.replies (.inl rfl)
  obtain ⟨hreg, hctrl⟩ | ⟨-, rfl⟩ | ⟨-, rfl⟩ | ⟨i, -, rfl⟩ | rfl := writeReg_cases h
  · obtain ⟨hv, rfl⟩ | ⟨-, -, -, rfl⟩ | ⟨-, -, hidle, rfl⟩ | ⟨-, -, rfl⟩ := writeCtrl_cases hctrl
    · obtain ⟨rfl, -, -⟩ := hl
      obtain rfl := eq_of_regAt_eq_ctrl hreg
      exact .softReset v hacc hv
    · exact .flags v[2] s.done true id
    · exact .start v[2] hidle
    · exact .flags v[2] s.done s.overrun id
  · exact .flags s.irqEn _ _ fun hdone => by simp [hdone]
  · cases hb : ({ s with inputs := rest } : State).busy with
    | true =>
      rw [writeCmd_busy hb]
      exact hsame
    | false =>
      rw [writeCmd_idle hb]
      exact .command v s.args hb
  · cases hb : ({ s with inputs := rest } : State).busy with
    | true =>
      rw [writeArg_busy hb]
      exact hsame
    | false =>
      rw [writeArg_idle hb]
      exact .command s.cmd _ hb
  · exact hsame

theorem performed_of_perform (h : perform r rest s = .next t) : Performed r rest s t := by
  obtain ⟨size, off, -, -, rfl⟩ | ⟨size, off, v, hacc, hl, hw⟩ | ⟨a, -, -, rfl⟩ | ⟨a, v, hacc, ha, rfl⟩ |
    ⟨-, -, rfl⟩ | ⟨-, -, rfl⟩ | ⟨hacc, rfl⟩ := perform_cases h
  · exact .reply rest _ (.inl rfl)
  · exact performed_of_regWrite hacc hl hw
  · exact .reply rest _ (.inl rfl)
  · exact .memWrite a v hacc ha
  · exact .reply s.inputs _ (.inr rfl)
  · exact .reply rest _ (.inl rfl)
  · exact .hardReset hacc

theorem Performed.cfg (h : Performed r rest s t) : t.cfg = s.cfg := by
  cases h with
  | softReset => exact softReset_cfg _
  | hardReset | start | flags | command | memWrite | reply => rfl

theorem Performed.inputs (h : Performed r rest s t) : t.inputs = rest ∨ t.inputs = s.inputs := by
  cases h with
  | softReset => exact .inl (softReset_inputs _)
  | reply inputs replies h => exact h
  | hardReset | start | flags | command | memWrite => exact .inl rfl

/-- An access that is not held, while BUSY, ends in IDLE or leaves the engine and the memory. -/
theorem Performed.engine (h : Performed r rest s t) (hbusy : s.busy = true) (hfree : r.access.held = false) :
    t.engine = .idle ∨ (t.engine = s.engine ∧ t.mem = s.mem) := by
  cases h with
  | hardReset => exact .inl rfl
  | softReset => exact .inl (resetRegisters_softReset _ ▸ resetRegisters_engine _)
  | start irqEn hidle => cases hbusy.symm.trans hidle
  | command cmd args hidle => cases hbusy.symm.trans hidle
  | memWrite a v hacc => cases hfree.symm.trans (congrArg Access.held hacc)
  | flags | reply => exact .inr ⟨rfl, rfl⟩

/-! ## The parts of the invariant -/

theorem latchCoherent_of_idle (h : s.engine = .idle) : s.LatchCoherent := fun l wait hbusy => by
  cases h.symm.trans hbusy

/-- Stores inside the operand memory leave every listed byte inside it. -/
theorem writeAll_inside {stores : List Host.Cell} {n : Nat} {m : Memory} (hm : ∀ c ∈ m, c.1 < n)
    (hstores : ∀ c ∈ stores, c.1 < n) : ∀ c ∈ Memory.writeAll m stores, c.1 < n := fun c hc =>
  (mem_writeAll stores hc).elim (hstores c) (hm c)

/-! ## The rule of a CMD word (R102) -/

theorem stores_inside_of_wordRule {w : Word} {e : Effect} (h : wordRule w s = .ok e) :
    ∀ c ∈ e.stores, c.1 < s.cfg.memBytes := by
  unfold wordRule at h
  split at h
  · exact stores_inside h
  · cases h

theorem cause_ne_none_of_wordRule {w : Word} {e : CmdError} (h : wordRule w s = .error e) : e.cause ≠ .none := by
  unfold wordRule at h
  split at h
  · exact cause_ne_none_of_commandRule h
  · cases h
    decide

theorem abortCells_inside (w : Word) : ∀ c ∈ s.abortCells (wordRule w s), c.1 < s.cfg.memBytes := by
  cases h : wordRule w s with
  | error e => exact List.forall_mem_nil _
  | ok e => exact List.forall_mem_map.2 (stores_inside_of_wordRule h)

/-! ## What keeps the invariant -/

theorem softReset_inv (h : s.Inv) : s.softReset.Inv := by
  obtain ⟨hlegal, hwf, hinside, -, -⟩ := h
  have hidle : s.softReset.engine = .idle := resetRegisters_softReset s ▸ resetRegisters_engine _
  refine ⟨softReset_cfg s ▸ hlegal, ?wf, ?inside, latchCoherent_of_idle hidle, ?error⟩
  case wf =>
    unfold State.softReset
    split
    · exact hwf
    · exact writeAll_wf _ hwf
  case inside =>
    unfold State.softReset
    split
    · exact hinside
    · exact writeAll_inside hinside (abortCells_inside _)
  case error => exact resetRegisters_softReset s ▸ ⟨rfl, fun _ => rfl⟩

/-- An access that takes effect keeps the invariant. -/
theorem Performed.inv (h : Performed r rest s t) (hs : s.Inv) : t.Inv := by
  obtain ⟨hlegal, hwf, hinside, hlatch, herror⟩ := id hs
  cases h with
  | hardReset => exact ⟨hlegal, List.Pairwise.nil, List.forall_mem_nil _, latchCoherent_of_idle rfl, rfl, fun _ => rfl⟩
  | softReset => exact softReset_inv (s := { s with inputs := rest }) hs
  | start =>
    refine ⟨hlegal, hwf, hinside, fun l wait hbusy => ?_, rfl, fun _ => rfl⟩
    cases hbusy
    exact ⟨rfl, rfl, rfl, rfl, rfl⟩
  | flags irqEn done overrun hdone =>
    refine ⟨hlegal, hwf, hinside, fun l wait hbusy => ?_, herror⟩
    obtain ⟨hcmd, hargs, hclear, herr⟩ := hlatch l wait hbusy
    exact ⟨hcmd, hargs, hdone hclear, herr⟩
  | command cmd args hidle => exact ⟨hlegal, hwf, hinside, latchCoherent_of_idle ((not_busy_iff s).1 hidle), herror⟩
  | memWrite a v hacc ha => 
    exact ⟨hlegal, write_wf a v hwf, fun c hc => (mem_write hc).elim (fun heq => heq ▸ ha) (hinside c), hlatch, herror⟩
  | reply => exact hs

/-- The completion step of a CMD word keeps the invariant. -/
theorem complete_inv (w : Word) (h : s.Inv) : (s.complete (wordRule w s)).Inv := by
  obtain ⟨hlegal, hwf, hinside, -, -⟩ := h
  cases hrule : wordRule w s with
  | ok e =>
    have hstored := writeAll_inside hinside (stores_inside_of_wordRule hrule)
    exact ⟨hlegal, writeAll_wf _ hwf, hstored, latchCoherent_of_idle rfl, rfl, fun _ => rfl⟩
  | error e =>
    exact ⟨hlegal, hwf, hinside, latchCoherent_of_idle rfl, rfl,
      fun hnone => absurd hnone (cause_ne_none_of_wordRule hrule)⟩

/-- The count of a delay is no part of the invariant. -/
theorem inv_of_wait {l : Latched} {wait wait' : Nat} (he : s.engine = .busy l wait) (h : s.Inv) :
    ({ s with engine := .busy l wait' } : State).Inv := by
  obtain ⟨hlegal, hwf, hinside, hlatch, herror⟩ := h
  refine ⟨hlegal, hwf, hinside, fun l' w hbusy => ?_, herror⟩
  cases hbusy
  exact hlatch l wait he

end

end Sys2Proof.Machine
end

section
/-! PROOFS. The step (R5, R279, R320): which access or completion it is, and what every step keeps or reaches. -/

namespace Sys2Proof.Machine

/-! ## Which step is taken -/

section
variable {s t : State} {l : Latched} {wait : Nat} {r : Request} {rest : List Request}

theorem step_idle_nil (he : s.engine = .idle) (hi : s.inputs = []) : step s = .next s := by
  simp only [step, advance, he, hi]

theorem step_idle_cons (he : s.engine = .idle) (hi : s.inputs = r :: rest) : step s = perform r rest s := by
  simp only [step, advance, he, hi]

/-- A busy engine whose delay is over, or for which only held accesses wait, completes. -/
theorem step_busy_completes (he : s.engine = .busy l wait) (h : wait = 0 ∨ takeUnheld s.inputs = none) :
    step s = completeLatched l s := by
  cases wait with
  | zero => simp only [step, advance, he]
  | succ wait => simp only [step, advance, he, h.resolve_left wait.succ_ne_zero]

theorem step_busy_performs (he : s.engine = .busy l (wait + 1)) (h : takeUnheld s.inputs = some (r, rest)) :
    step s = perform r rest { s with engine := .busy l wait } := by
  simp only [step, advance, he, h]

theorem completeLatched_of_decode {i : Instr} (h : decode l.cmd = .ok i) : completeLatched l s = exec i s := by
  simp only [completeLatched, h]

/-- A step from BUSY is the completion, or an access that is not held with the delay one shorter. -/
theorem step_busy_cases (he : s.engine = .busy l wait) :
    step s = .next (s.complete (wordRule l.cmd s)) ∨
      ∃ wait' r rest, wait = wait' + 1 ∧ takeUnheld s.inputs = some (r, rest) ∧
        step s = perform r rest { s with engine := .busy l wait' } := by
  obtain ⟨hidle, -⟩ | ⟨r, rest, hidle, -⟩ | ⟨l', w, hb, -, h⟩ | ⟨l', w, r, rest, hb, ht, h⟩ := step_cases s
  · cases he.symm.trans hidle
  · cases he.symm.trans hidle
  · cases he.symm.trans hb
    exact .inl h
  · cases he.symm.trans hb
    exact .inr ⟨w, r, rest, rfl, ht, h⟩

/-- Everything a step that has a next state did: nothing, a completion, or an access of the queue, performed in `s` or
in `s` with the delay one shorter. -/
theorem step_next_cases (h : step s = .next t) :
    t = s ∨ (∃ l wait, s.engine = .busy l wait ∧ t = s.complete (wordRule l.cmd s)) ∨
      ∃ r rest, r ∈ s.inputs ∧ (∀ q ∈ rest, q ∈ s.inputs) ∧
        (Performed r rest s t ∨
          ∃ l wait, s.engine = .busy l (wait + 1) ∧ Performed r rest { s with engine := .busy l wait } t) := by
  obtain ⟨-, -, hstep⟩ | ⟨r, rest, -, hi, hstep⟩ | ⟨l, wait, he, -, hstep⟩ | ⟨l, wait, r, rest, he, ht, hstep⟩ :=
    step_cases s
  · exact .inl (by simpa using h.symm.trans hstep)
  · refine .inr (.inr ⟨r, rest, ?_, fun q hq => ?_, .inl (performed_of_perform (hstep.symm.trans h))⟩)
    · rw [hi]
      exact List.mem_cons_self
    · rw [hi]
      exact List.mem_cons_of_mem r hq
  · exact .inr (.inl ⟨l, wait, he, by simpa using h.symm.trans hstep⟩)
  · obtain ⟨hr, -, hrest, -⟩ := takeUnheld_some ht
    exact .inr (.inr ⟨r, rest, hr, hrest, .inr ⟨l, wait, he, performed_of_perform (hstep.symm.trans h)⟩⟩)

@[simp] theorem complete_cfg (s : State) (o : Except CmdError Effect) : (s.complete o).cfg = s.cfg := by
  cases o <;> rfl

@[simp] theorem complete_engine (s : State) (o : Except CmdError Effect) : (s.complete o).engine = .idle := by
  cases o <;> rfl

@[simp] theorem complete_inputs (s : State) (o : Except CmdError Effect) : (s.complete o).inputs = s.inputs := by
  cases o <;> rfl

/-- A register access, of either direction, goes through the port check (R43). -/
theorem exists_onRegisterPort {size off : Nat}
    (h : r.access = .regRead size off ∨ ∃ v, r.access = .regWrite size off v) :
    ∃ act, perform r rest s = onRegisterPort size off act := by
  obtain h | ⟨v, h⟩ := h
  · exact ⟨_, perform_regRead h⟩
  · exact ⟨_, perform_regWrite h⟩

/-! ## What every step keeps -/

theorem step_cfg (h : step s = .next t) : t.cfg = s.cfg := by
  obtain rfl | ⟨l, wait, -, rfl⟩ | ⟨r, rest, -, -, hp | ⟨l, wait, -, hp⟩⟩ := step_next_cases h
  · rfl
  · exact complete_cfg s _
  · exact hp.cfg
  · exact hp.cfg

/-- A step issues no new access. -/
theorem mem_inputs_of_step (h : step s = .next t) : ∀ q ∈ t.inputs, q ∈ s.inputs := by
  have hqueue {rest : List Request} (hrest : ∀ q ∈ rest, q ∈ s.inputs) (ht : t.inputs = rest ∨ t.inputs = s.inputs) :
      ∀ q ∈ t.inputs, q ∈ s.inputs := by
    obtain ht | ht := ht
    · rwa [ht]
    · rw [ht]
      exact fun q hq => hq
  obtain rfl | ⟨l, wait, -, rfl⟩ | ⟨r, rest, -, hrest, hp | ⟨l, wait, -, hp⟩⟩ := step_next_cases h
  · exact fun q hq => hq
  · rw [complete_inputs]
    exact fun q hq => hq
  · exact hqueue hrest hp.inputs
  · exact hqueue hrest hp.inputs

theorem step_inv (hs : s.Inv) (h : step s = .next t) : t.Inv := by
  obtain rfl | ⟨l, wait, -, rfl⟩ | ⟨r, rest, -, -, hp | ⟨l, wait, he, hp⟩⟩ := step_next_cases h
  · exact hs
  · exact complete_inv l.cmd hs
  · exact hp.inv hs
  · exact hp.inv (inv_of_wait he hs)

theorem step_dutiful (hs : s.Dutiful) (h : step s = .next t) : t.Dutiful := fun q hq =>
  step_cfg h ▸ hs q (mem_inputs_of_step h q hq)

/-! ## RESULT -/

/-- An access changes RESULT only when it is a reset. -/
theorem Performed.result (h : Performed r rest s t) : t.result = s.result ∨
    (r.access = .hardReset ∧ t = ({ s with inputs := t.inputs } : State).hardReset) ∨
      ∃ v : Word, r.access = .regWrite 4 0x0C v ∧ v[1] = true ∧
        t = ({ s with inputs := t.inputs } : State).softReset := by
  cases h with
  | hardReset hacc => exact .inr (.inl ⟨hacc, rfl⟩)
  | softReset v hacc hv => exact .inr (.inr ⟨v, hacc, hv, by rw [softReset_inputs]⟩)
  | start | flags | command | memWrite | reply => exact .inl rfl

theorem softReset_of_wait {wait' : Nat} (he : s.engine = .busy l wait) :
    ({ s with engine := .busy l wait' } : State).softReset = s.softReset := by
  rw [softReset_wait s l wait' wait, ← he]

/-- A completion that changes RESULT is that of a scalar command, with ERR = OK. -/
theorem result_complete_wordRule (w : Word) (s : State) : (s.complete (wordRule w s)).result = s.result ∨
    ∃ i, decode w = .ok i ∧ i ∈ [Instr.gfMul, .gfDiv, .gfInv] ∧ exec i s = .next (s.complete (wordRule w s)) ∧
      (s.complete (wordRule w s)).err = .ok ∧ (s.complete (wordRule w s)).done = true := by
  unfold wordRule
  cases decode w with
  | error => exact .inl rfl
  | ok i =>
    dsimp only
    cases h : commandRule i s with
    | error => exact .inl rfl
    | ok e =>
      by_cases hi : i ∈ [Instr.gfMul, .gfDiv, .gfInv]
      · exact .inr ⟨i, rfl, hi, exec_of_commandRule_eq_ok h, rfl, rfl⟩
      · refine .inl ?_
        show e.result.getD s.result = s.result
        rw [result_eq_none_of_commandRule hi h, Option.getD_none]

/-! ## A host that keeps its duties -/

/-- A CTRL write has a next state while BUSY, and on a bus that keeps program order (R277). -/
theorem exists_writeCtrl (agent seq : Nat) (v : Word) (h : s.busy = true ∨ s.cfg.hostBusOrdered = true) :
    ∃ t, s.writeCtrl agent seq v = .next t := by
  cases h1 : v[1] with
  | true => exact ⟨_, writeCtrl_sreset agent seq h1⟩
  | false =>
    cases h0 : v[0] with
    | false => exact ⟨_, writeCtrl_enable agent seq h1 h0⟩
    | true =>
      cases hb : s.busy with
      | true => exact ⟨_, writeCtrl_start_busy agent seq h1 h0 hb⟩
      | false => exact ⟨_, writeCtrl_start_idle agent seq h1 h0 hb (h.resolve_left (by simp [hb]))⟩

/-- A legal access has a next state while BUSY, and on a bus that keeps program order (R326). -/
theorem exists_perform (hr : r.Dutiful s.cfg) (h : s.busy = true ∨ s.cfg.hostBusOrdered = true) :
    ∃ t, perform r rest s = .next t := by
  unfold Request.Dutiful at hr
  cases hacc : r.access with
  | regRead size off =>
    simp only [hacc] at hr
    exact ⟨_, perform_regRead_legal hacc hr⟩
  | regWrite size off v =>
    simp only [hacc] at hr
    rw [perform_regWrite_legal hacc hr]
    cases regAt off with
    | ctrl => exact exists_writeCtrl (s := { s with inputs := rest }) r.agent r.seq v h
    | status | cmd | arg | id | params | memsize | result | errInfo | reserved => exact ⟨_, rfl⟩
  | memRead a =>
    simp only [hacc] at hr
    exact ⟨_, (perform_memRead hacc).trans (onMemoryPort_legal hr _)⟩
  | memWrite a v =>
    simp only [hacc] at hr
    exact ⟨_, (perform_memWrite hacc).trans (onMemoryPort_legal hr _)⟩
  | poll => exact ⟨_, perform_poll hacc⟩
  | hardReset => exact ⟨_, perform_hardReset hacc⟩

theorem run_succ (n : Nat) (h : step s = .next t) : Host.Core.run core (n + 1) s = Host.Core.run core n t := by
  have hcore : core.step s = .next t := h
  simp only [Host.Core.run, hcore]

/-- Each step from BUSY shortens the delay or ends in IDLE. -/
theorem exists_run_idle (he : s.engine = .busy l wait) (hs : s.Dutiful) :
    ∃ n t, n ≤ wait + 1 ∧ Host.Core.run core n s = .next t ∧ t.engine = .idle := by
  induction wait generalizing s with
  | zero =>
    have hstep := (step_busy_completes he (.inl rfl)).trans (completeLatched_eq l s)
    exact ⟨1, _, le_rfl, run_succ 0 hstep, complete_engine s _⟩
  | succ wait ih =>
    cases ht : takeUnheld s.inputs with
    | none =>
      have hstep := (step_busy_completes he (.inr ht)).trans (completeLatched_eq l s)
      exact ⟨1, _, by omega, run_succ 0 hstep, complete_engine s _⟩
    | some found =>
      obtain ⟨r, rest⟩ := found
      obtain ⟨hr, hfree, -, -⟩ := takeUnheld_some ht
      obtain ⟨t, hp⟩ := exists_perform (s := { s with engine := .busy l wait }) (rest := rest) (hs r hr) (.inl rfl)
      have hstep := (step_busy_performs he ht).trans hp
      obtain hidle | ⟨hbusy, -⟩ := (performed_of_perform hp).engine rfl hfree
      · exact ⟨1, t, by omega, run_succ 0 hstep, hidle⟩
      · obtain ⟨n, t', hn, hrun, hidle⟩ := ih hbusy (step_dutiful hs hstep)
        exact ⟨n + 1, t', by omega, (run_succ n hstep).trans hrun, hidle⟩

end

/-! ## The statements -/

/-- Settles O54: resets, completions and accesses each keep the invariant. -/
theorem everyStepKeepsTheMachineInvariant : Obligations.EveryStepKeepsTheMachineInvariant :=
  fun _ _ => step_inv

/-- Settles O55: at reset nothing is latched, listed or reported. -/
theorem resetMeetsTheMachineInvariant : Obligations.ResetMeetsTheMachineInvariant :=
  ⟨by decide, reset_memory_wf, List.forall_mem_nil _, latchCoherent_of_idle rfl, rfl, fun _ => rfl⟩

/-- Settles O56: ID, PARAMS and MEMSIZE are read from the configuration. -/
theorem noStepChangesTheParameters : Obligations.NoStepChangesTheParameters := fun _ _ h =>
  ⟨step_cfg h, rfl, congrArg paramsWord (step_cfg h), congrArg memsizeWord (step_cfg h)⟩

/-- Settles O57: an access changes RESULT by a reset only, a completion by a byte for RESULT only. -/
theorem resultChangesOnlyByScalarSuccessOrReset : Obligations.ResultChangesOnlyByScalarSuccessOrReset := by
  intro s t h
  obtain rfl | ⟨l, wait, he, rfl⟩ | ⟨r, rest, hr, -, hp | ⟨l, wait, he, hp⟩⟩ := step_next_cases h
  · exact .inl rfl
  · obtain hsame | ⟨i, hd, hi, hexec, herr, hdone⟩ := result_complete_wordRule l.cmd s
    · exact .inl hsame
    · exact .inr (.inr ⟨l, wait, i, he, hd, hi, h.trans hexec.symm, herr, hdone⟩)
  · exact hp.result.imp_right fun hreset => .inl ⟨r, hr, hreset⟩
  · obtain hsame | ⟨hacc, ht⟩ | ⟨v, hacc, hv, ht⟩ := hp.result
    · exact .inl hsame
    · exact .inr (.inl ⟨r, hr, .inl ⟨hacc, ht⟩⟩)
    · have hwait := softReset_of_wait (s := { s with inputs := t.inputs }) (wait' := wait) he
      exact .inr (.inl ⟨r, hr, .inr ⟨v, hacc, hv, ht.trans hwait⟩⟩)

/-- Settles O50: the access a busy step takes is not held, so it leaves the held ones and, unless it resets, the
memory. -/
theorem memoryAccessesAreHeldWhileBusy : Obligations.MemoryAccessesAreHeldWhileBusy := by
  intro s t l wait he h
  have hports (size off : Nat) (v : Word) (a : Nat) (b : Byte) :
      (Access.regRead size off).held = false ∧ (Access.regWrite size off v).held = false ∧
        (Access.memRead a).held = true ∧ (Access.memWrite a b).held = true := ⟨rfl, rfl, rfl, rfl⟩
  obtain hstep | ⟨wait', r, rest, rfl, ht, hstep⟩ := step_busy_cases he
  · obtain rfl : s.complete (wordRule l.cmd s) = t := by simpa using hstep.symm.trans h
    have hidle : (s.complete (wordRule l.cmd s)).busy = false := (not_busy_iff _).2 (complete_engine s _)
    rw [complete_inputs]
    exact ⟨fun q hq _ => hq, fun hbusy => by simp [hidle] at hbusy, fun _ => hidle, hports⟩
  · obtain ⟨hr, hfree, -, hheld⟩ := takeUnheld_some ht
    have hp := performed_of_perform (hstep.symm.trans h)
    refine ⟨fun q hq hqheld => ?stays, fun hbusy => ?memory, fun hall => ?completes, hports⟩
    case stays =>
      obtain hin | hin := hp.inputs
      · exact hin ▸ hheld q hq hqheld
      · exact hin ▸ hq
    case memory =>
      obtain hidle | ⟨-, hmem⟩ := hp.engine rfl hfree
      · simp [(not_busy_iff t).2 hidle] at hbusy
      · exact hmem
    case completes => cases hfree.symm.trans (hall r hr)

/-- Settles O58: the delay shortens with every step that is not the last. -/
theorem busyEngineReachesIdle : Obligations.BusyEngineReachesIdle := by
  intro s l wait he hs
  obtain ⟨n, t, hn, hrun, hidle⟩ := exists_run_idle he hs
  exact ⟨n, t, hn, hrun, (not_busy_iff t).2 hidle⟩

/-- Settles O59: a legal access has a next state, a completion always has one, and no step issues an access. -/
theorem dutifulHostNeverStopsTheMachine : Obligations.DutifulHostNeverStopsTheMachine := by
  intro s hs hordered
  have hnext : ∃ t, step s = .next t := by
    obtain ⟨-, -, hstep⟩ | ⟨r, rest, -, hi, hstep⟩ | ⟨l, wait, -, -, hstep⟩ | ⟨l, wait, r, rest, -, ht, hstep⟩ :=
      step_cases s
    · exact ⟨_, hstep⟩
    · rw [hstep]
      exact exists_perform (hs r (hi ▸ List.mem_cons_self)) (.inr hordered)
    · exact ⟨_, hstep⟩
    · obtain ⟨hr, -⟩ := takeUnheld_some ht
      rw [hstep]
      exact exists_perform (s := { s with engine := .busy l wait }) (hs r hr) (.inr hordered)
  obtain ⟨t, ht⟩ := hnext
  exact ⟨t, ht, step_dutiful hs ht⟩

/-- Settles O10: the completion step comes at the end of the delay or when nothing else may move. -/
theorem stepRunsTheDecodedCommand : Obligations.StepRunsTheDecodedCommand := fun s l _ he h =>
  have hstep : step s = completeLatched l s := step_busy_completes he h
  ⟨hstep, fun _ hd => hstep.trans (completeLatched_of_decode hd)⟩

/-- Settles O11: `withFetchWord` leaves the command latched with no delay. -/
theorem placedWordIsRunByTheNextStep : Obligations.PlacedWordIsRunByTheNextStep := by
  intro s i
  have hword : BitVec.ofNat 32 ((encode i).toNat % 2 ^ 32) = encode i := by
    rw [Nat.mod_eq_of_lt (encode i).isLt, BitVec.ofNat_toNat, BitVec.setWidth_eq]
  have hplaced : s.withFetchWord 32 (encode i).toNat = s.withCommand (encode i) := congrArg s.withCommand hword
  have hbusy : (s.withCommand (encode i)).engine = .busy ⟨encode i, s.args⟩ 0 := rfl
  refine ⟨by cases i <;> decide, _, hplaced, rfl, rfl, ?_⟩
  exact (step_busy_completes hbusy (.inl rfl)).trans (completeLatched_of_decode ((decode_eq_ok_iff _ i).2 rfl))

/-- Settles O12: the three kinds of step that are no completion. -/
theorem stepPerformsTheNextAccess : Obligations.StepPerformsTheNextAccess := by
  refine fun s => ⟨step_idle_nil, fun r rest => step_idle_cons, fun l wait r rest he ht => ?_⟩
  obtain ⟨hr, hfree, -⟩ := takeUnheld_some ht
  exact ⟨step_busy_performs he ht, hr, hfree⟩

/-- Settles O60: the port checks, in their order. -/
theorem undutifulAccessStopsTheMachine : Obligations.UndutifulAccessStopsTheMachine := by
  intro s r rest he hi
  rw [step_idle_cons he hi]
  refine ⟨fun a ha hacc => ?memory, fun size off hsize hacc => ?width, fun off halign hacc => ?align,
    fun off halign hrange hacc => ?range⟩
  case memory =>
    obtain hacc | ⟨v, hacc⟩ := hacc
    · exact (perform_memRead hacc).trans (if_neg ha.not_gt)
    · exact (perform_memWrite hacc).trans (if_neg ha.not_gt)
  all_goals
    obtain ⟨act, hport⟩ := exists_onRegisterPort (s := s) (rest := rest) hacc
    rw [hport, onRegisterPort]
  case width => exact if_pos hsize
  case align => exact if_pos halign
  case range => exact (if_neg (not_not.2 halign)).trans (if_pos hrange)

end Sys2Proof.Machine
end

section
/-! PROOFS. A mnemonic (R108): its argument writes take one step each, then CMD is written and the command started. -/

namespace Sys2Proof.Machine

theorem run_add {m : Nat} (n : Nat) {s t : State} (h : Host.Core.run core m s = .next t) :
    Host.Core.run core (m + n) s = Host.Core.run core n t := by
  induction m generalizing s with
  | zero =>
    cases h
    rw [Nat.zero_add]
  | succ m ih =>
    rw [Nat.succ_add]
    cases hstep : core.step s with
    | next s' =>
      simp only [Host.Core.run, hstep] at h ⊢
      exact ih h
    | fault r => simp [Host.Core.run, hstep] at h
    | refused r => simp [Host.Core.run, hstep] at h

theorem length_argWrites (i : Nat) (operands : List Word) : (argWrites i operands).length = operands.length := by
  induction operands generalizing i with
  | nil => rfl
  | cons v operands ih => exact congrArg (· + 1) (ih (i + 1))

theorem requestsFrom_append (agent seq : Nat) (xs ys : List Access) :
    requestsFrom agent seq (xs ++ ys) = requestsFrom agent seq xs ++ requestsFrom agent (seq + xs.length) ys := by
  induction xs generalizing seq with
  | nil => rfl
  | cons a xs ih => simp only [List.cons_append, requestsFrom, ih, List.length_cons, Nat.add_assoc, Nat.add_comm 1]

/-- The writes of ARGi, ARGi+1, ... by an idle machine take one step each and leave the operands there (R108). -/
theorem run_argWrites {agent seq i : Nat} {operands : List Word} {later : List Request} {s : State}
    (he : s.engine = .idle) (hin : s.inputs = requestsFrom agent seq (argWrites i operands) ++ later)
    (hfit : i + operands.length ≤ 9) :
    ∃ args, Host.Core.run core operands.length s = .next { s with inputs := later, args := args } ∧
      ∀ n : Fin 9, args.get n = if n.val < i then s.args.get n else operands.getD (n - i) (s.args.get n) := by
  induction operands generalizing i seq s with
  | nil =>
    refine ⟨s.args, ?_, fun n => by simp⟩
    rw [show later = s.inputs from hin.symm]
    rfl
  | cons v operands ih =>
    rw [List.length_cons] at hfit
    obtain ⟨k, rfl⟩ : ∃ k : Fin 9, i = k.val := ⟨⟨i, by omega⟩, rfl⟩
    have hstep := (step_idle_cons he hin).trans (perform_argWrite_idle (i := k) rfl ((not_busy_iff s).2 he))
    obtain ⟨args, hrun, hargs⟩ := ih (i := k.val + 1) (seq := seq + 1)
      (s := { s with inputs := _, args := s.args.set k v }) he rfl (by omega)
    refine ⟨args, (run_succ _ hstep).trans hrun, fun n => ?_⟩
    rw [hargs n, get_set_args]
    obtain hlt | rfl | hgt := lt_trichotomy n k
    · simp [hlt.ne, Fin.lt_def.1 hlt, Nat.lt_succ_of_lt (Fin.lt_def.1 hlt)]
    · simp
    · have hsub : n.val - k.val = n.val - (k.val + 1) + 1 := by omega
      simp [hgt.ne', hsub, (Fin.lt_def.1 hgt).not_gt, Nat.not_lt.2 (Nat.succ_le_of_lt (Fin.lt_def.1 hgt))]

/-- While IDLE on a bus that keeps program order, a write of START at offset 0x0C is accepted (R277). -/
theorem perform_start_idle {r : Request} {rest : List Request} {s : State} {v : Word}
    (hacc : r.access = .regWrite 4 0x0C v) (h1 : v[1] = false) (h0 : v[0] = true) (hidle : s.busy = false)
    (ho : s.cfg.hostBusOrdered = true) :
    perform r rest s = .next
      (({ s with inputs := rest, irqEn := v[2] } : State).drawDelay.acceptStart s.nextDelay) :=
  (perform_regWrite_legal hacc (by decide)).trans
    (writeCtrl_start_idle (s := { s with inputs := rest }) r.agent r.seq h1 h0 hidle ho)

/-- A CMD write and a CTRL write with START by an idle machine take one step each and latch the word (R277). -/
theorem run_cmdWrite_start {agent seq seq' : Nat} {w v : Word} {s : State} (he : s.engine = .idle)
    (hin : s.inputs = [⟨agent, seq, .regWrite 4 0x14 w⟩, ⟨agent, seq', .regWrite 4 0x0C v⟩])
    (ho : s.cfg.hostBusOrdered = true) (h1 : v[1] = false) (h0 : v[0] = true) :
    Host.Core.run core 2 s = .next
      (({ s with inputs := [], cmd := w, irqEn := v[2] } : State).drawDelay.acceptStart s.nextDelay) := by
  have hidle : s.busy = false := (not_busy_iff s).2 he
  have hcmd := (step_idle_cons he hin).trans (perform_cmdWrite_idle rfl hidle)
  have hstart := (step_idle_cons (s := { s with inputs := [⟨agent, seq', .regWrite 4 0x0C v⟩], cmd := w }) he rfl).trans
    (perform_start_idle rfl h1 h0 hidle ho)
  exact (run_succ 1 hcmd).trans (run_succ 0 hstart)

/-- A command uses at most the nine argument registers (R103). -/
theorem arity_le (i : Instr) : arity i ≤ 9 := by cases i <;> decide

/-- The requests a mnemonic without POLL stands for (R108). -/
theorem withProgram_command_inputs {s : State} (hempty : s.inputs = []) (i : Instr) (operands : List Word) :
    (s.withProgram 0 [.command i operands true]).inputs = requestsFrom 0 0 (argWrites 0 operands) ++
      [⟨0, operands.length, .regWrite 4 0x14 (encode i)⟩,
        ⟨0, operands.length + 1, .regWrite 4 0x0C 0x00000001#32⟩] := by
  simp only [State.withProgram, hempty, List.nil_append, assemble, Statement.accesses, if_true, List.append_nil,
    requestsFrom_append, length_argWrites, Nat.zero_add]
  rfl

/-- Settles O13: the argument writes, the CMD write and the START, after which the queue is empty. -/
theorem mnemonicRunsItsCommand : Obligations.MnemonicRunsItsCommand := by
  intro s i operands he hempty hordered hlen
  have hfit : 0 + operands.length ≤ 9 := by
    rw [Nat.zero_add, hlen]
    exact arity_le i
  obtain ⟨args, hargsRun, hargs⟩ := run_argWrites (s := s.withProgram 0 [.command i operands true]) he
    (withProgram_command_inputs hempty i operands) hfit
  have hrun := (run_add 2 hargsRun).trans (run_cmdWrite_start he rfl hordered (by decide) (by decide))
  rw [hlen] at hrun
  refine ⟨_, hrun, rfl, fun n => ?args, rfl, rfl, ?completes⟩
  case args => exact (hargs n).trans (if_neg n.val.not_lt_zero)
  case completes =>
    exact (step_busy_completes rfl (.inr rfl)).trans (completeLatched_of_decode ((decode_eq_ok_iff _ i).2 rfl))

end Sys2Proof.Machine
end
